-- ==== Sys2Proof/Word.lean ====
section
/-! DEFINITION. The words the block handles: the 64-bit value, the byte, and the three port words
(00_scope.md R5, 30_encoding.md R50). -/

namespace Sys2Proof

/-- A 64-bit value: `WORD` of 00_scope.md R5. -/
abbrev Word := BitVec 64

/-- One byte of entropy: the source port's data width (00_scope.md R5). -/
abbrev Byte := BitVec 8

/-- One word on the CMD port, 65 bits: `op` at bit 64, `arg` at bits 63:0 (30_encoding.md R51). -/
abbrev CmdWord := BitVec 65

/-- One word on the RSP port, 66 bits: `status` at 65:64, `result` at 63:0 (30_encoding.md R55). -/
abbrev RspWord := BitVec 66

/-- One reply word on the SRC port, 9 bits: `fail` at bit 8, `data` at 7:0 (30_encoding.md R58). -/
abbrev SrcrWord := BitVec 9

end Sys2Proof
end

