-- ==== Sys2Proof/Config.lean ====
section
/-! DEFINITION. What an implementation or a platform fixes and the spec leaves open. The only OPEN
parameter of this hardware is the entropy source (00_scope.md R5, 92_eei_decisions.md "Parameters
left OPEN"). -/

namespace Sys2Proof

/-- FREE VALUE (notes/assumptions/3.md): the answer of an unconstrained source to the `i`-th request
of its life once its script is used up: a reply word, or `none` where it never replies
(20_memory.md R31, R32 item 1). It has no body, so nothing can be proved of its values and a statement
holds for every source. -/
opaque Config.sourceReply : Nat → Option SrcrWord

end Sys2Proof
end

