-- ==== Sys2Proof/Machine/State.lean ====
section
/-! DEFINITION. The state of the machine: the nine registers of the block (10_state.md R11), and, kept
apart from them because the spec says they are not the block's (R10, R17), what HOST, the source and
the reset input hold and will do. -/

namespace Sys2Proof.Machine

/-- PHASE (10_state.md R11, R12). Its numeric code is not fixed (93_implementation_defined.md U17). -/
inductive Phase where
  | idle | fill | done
  deriving DecidableEq, Repr

/-- OP: which command is in flight, `0` EXTRACT, `1` UNIFORM (10_state.md R11, 30_encoding.md R52). -/
inductive Op where
  | extract | uniform
  deriving DecidableEq, Repr

/-- STATUS (10_state.md R11, 30_encoding.md R56). The code `0b11` is never produced, so the type has
three values (93_implementation_defined.md U7). -/
inductive Status where
  | ok | invalidArgument | sourceError
  deriving DecidableEq, Repr

/-- The registers of the block, in the order of 10_state.md R11 and with its widths. -/
structure Urr where
  phase  : Phase
  op     : Op
  arg    : BitVec 64
  bits   : BitVec 7
  limit  : BitVec 64
  buf    : BitVec 64
  cnt    : BitVec 4
  status : Status
  result : BitVec 64
  deriving DecidableEq, Repr

/-- The idle state of the block: PHASE = IDLE and every other register zero (10_state.md R24, R28). -/
def Urr.zero : Urr where
  phase := .idle
  op := .extract
  arg := 0#64
  bits := 0#7
  limit := 0#64
  buf := 0#64
  cnt := 0#4
  status := .ok
  result := 0#64

/-- HOST (10_state.md R10): the CMD words it has still to present, the presented one first, and the RSP
words it has taken, oldest first. -/
structure HostAgent where
  commands  : List CmdWord
  responses : List RspWord
  deriving DecidableEq, Repr

/-- What a source answers when its script is used up (20_memory.md R32). -/
inductive SourceKind where
  /-- The fixed source: every further request is answered `Fail` (R32 item 2, 30_encoding.md R61). -/
  | fixed
  /-- The unconstrained source: any reply, or never one (R32 item 1). -/
  | unconstrained
  deriving DecidableEq, Repr

/-- SRC, the entropy source as an agent with its own state (10_state.md R17, 90_conflicts.md C2). -/
structure Source where
  /-- The reply words it gives to the next requests, first one first. -/
  script : List SrcrWord
  /-- What it answers after them. -/
  kind   : SourceKind
  /-- How many requests it has answered over its life. -/
  served : Nat
  deriving DecidableEq, Repr

/-- Who acts at a step. The spec fixes no order and no time (10_state.md R21): any finite list of turns
can be the schedule (DESIGN CHOICE, notes/assumptions/1.md, 10.md). -/
inductive Turn where
  /-- The block's enabled step happens if what it needs from outside is there. -/
  | go
  /-- Nothing happens: HOST or the source holds back, or FINISH has not happened yet (R21). -/
  | wait
  /-- The reset input is asserted (70_reset_and_hazards.md R170). `consumed` says whether the source
  counts a byte request outstanding at this moment as consumed, which the spec leaves to the source
  (R171, 93_implementation_defined.md U6). -/
  | reset (consumed : Bool)
  deriving DecidableEq, Repr

/-- The state of the machine. -/
structure State where
  urr      : Urr
  host     : HostAgent
  src      : Source
  schedule : List Turn
  deriving DecidableEq, Repr

/-- Why the machine stops. It never does: both errors of the spec are status codes of a response
(60_exceptions.md R140, R145) and no encoding has unspecified behaviour (30_encoding.md R59), so the
type has no constructor. -/
inductive Fault where
  deriving DecidableEq, Repr

/-- Why an instruction is turned away. -/
inductive Refusal where
  /-- Raised by an arm of `exec` whose instruction has no meaning yet; no arm of this model raises it.
  Safe: the machine stops where the hardware goes on. -/
  | notModelled (mnemonic : String)
  deriving DecidableEq, Repr

/-- The machine right after reset: every register of the block is zero and PHASE is IDLE
(10_state.md R28, 70_reset_and_hazards.md R170). The rest is not the block's and the spec gives it no
value: HOST has no command to present and has taken no response, an unconstrained source is attached,
no turn is planned (DESIGN CHOICE, notes/assumptions/1.md, 2.md, 3.md, 10.md). -/
def State.reset : State where
  urr := Urr.zero
  host := { commands := [], responses := [] }
  src := { script := [], kind := .unconstrained, served := 0 }
  schedule := []

end Sys2Proof.Machine
end

