-- ==== Sys2Proof/Machine/Flags.lean ====
section
/-! DEFINITION. The codes and conditions. The block has no condition flags (10_state.md R11); STATUS is
the only flag-like state. Here stand the numeric codes of OP and STATUS (30_encoding.md R52, R56), the
power-of-two condition (10_state.md R13), the reply word's `fail` bit (30_encoding.md R58) and what can
be seen from outside (92_eei_decisions.md D24). -/

namespace Sys2Proof.Machine

/-- The code of OP (30_encoding.md R52). -/
def Op.code : Op → BitVec 1
  | .extract => 0#1
  | .uniform => 1#1

/-- The code of STATUS (30_encoding.md R56). -/
def Status.code : Status → BitVec 2
  | .ok => 0#2
  | .invalidArgument => 1#2
  | .sourceError => 2#2

/-- `isPow2(N)`: `N & (N - 1) = 0` (42_range_reducer.md R100, 10_state.md R13). -/
def isPow2 (a : Word) : Bool := decide (a &&& (a - 1#64) = 0#64)

/-- A reply of the source (20_memory.md R31). -/
inductive Reply where
  | byte (b : Byte)
  | fail
  deriving DecidableEq, Repr

/-- The reply a reply word stands for: `fail = 1` is `Fail` whatever `data` holds
(30_encoding.md R58). -/
def replyOf (w : SrcrWord) : Reply :=
  if w.extractLsb' 8 1 = 1#1 then .fail else .byte (w.extractLsb' 0 8)

/-- The reply word with `fail = 0` and this byte as `data` (30_encoding.md R58). -/
def byteWord (b : Byte) : SrcrWord := 0#1 ++ b

/-- A reply word with `fail = 1`; its `data` is ignored (30_encoding.md R58). -/
def failWord : SrcrWord := 1#1 ++ 0#8

/-- NEED, the bytes the current fill takes: `ceil(BITS / 8)` (10_state.md R13). -/
def Urr.need (u : Urr) : Nat := (u.bits.toNat + 7) / 8

/-- POW2 (10_state.md R13). -/
def Urr.pow2 (u : Urr) : Bool := decide (u.op = .uniform) && isPow2 u.arg

/-- A byte request is outstanding: PHASE = FILL and CNT < NEED (20_memory.md R31). -/
def Urr.srcRequest (u : Urr) : Bool := decide (u.phase = .fill) && decide (u.cnt.toNat < u.need)

/-- CMD is ready: a command is taken only in IDLE (10_state.md R20). -/
def Urr.cmdReady (u : Urr) : Bool := decide (u.phase = .idle)

/-- A response word is offered: only in DONE (10_state.md R20). -/
def Urr.rspValid (u : Urr) : Bool := decide (u.phase = .done)

/-- `{STATUS, RESULT}`: the word RESPOND delivers (10_state.md R22, 30_encoding.md R55). -/
def Urr.rsp (u : Urr) : RspWord := u.status.code ++ u.result

end Sys2Proof.Machine
end

