-- ==== Sys2Proof/Syntax.lean ====
section
/-! DEFINITION. The command set of the block: the two rows of spec/opcode_table.json
(30_encoding.md R52). The operand of a term is the number the spec reads from `arg`: unsigned for
EXTRACT (R53), two's complement signed for UNIFORM (R54). -/

namespace Sys2Proof

/-- The commands of the block, one constructor per row of the opcode table. -/
inductive Instr where
  /-- `EXTRACT n`: `n` low-order random bits (30_encoding.md R53, 40_bit_extractor.md R73). -/
  | extract (n : Nat)
  /-- `UNIFORM N`: an integer in `[0, N)` (30_encoding.md R54, 42_range_reducer.md R101). -/
  | uniform (bound : Int)
  deriving DecidableEq, Repr

end Sys2Proof
end

