-- ==== Sys2Proof/WellFormed.lean ====
section
/-! DEFINITION. Which terms are commands a CMD word can hold: the operand fits the 64 bits of `arg`
under the reading its command gives it (30_encoding.md R53, R54). -/

namespace Sys2Proof

/-- `0 ≤ n ≤ 2^64 - 1` for EXTRACT (R53), `-2^63 ≤ N ≤ 2^63 - 1` for UNIFORM (R54). An operand the
block answers with INVALID_ARGUMENT is well formed: it is a legal encoding (30_encoding.md R59). -/
def Instr.wellFormed : Instr → Bool
  | .extract n => decide (n < 2 ^ 64)
  | .uniform bound => decide (-(2 ^ 63) ≤ bound) && decide (bound < 2 ^ 63)

/-- The operand of the command fits its CMD word. -/
abbrev Instr.WellFormed (i : Instr) : Prop := i.wellFormed = true

end Sys2Proof
end

