-- ==== Sys2Proof/Decode.lean ====
section
/-! DEFINITION. Reading and writing CMD words. A command is one whole word of 65 bits, never a byte
sequence (20_memory.md R34, 30_encoding.md R50), and every one of the `2^65` words is a legal command
(R51), so decoding a word is total. -/

namespace Sys2Proof

/-- Bit 64 of a CMD word (30_encoding.md R51). -/
def opField (w : CmdWord) : BitVec 1 := w.extractLsb' 64 1

/-- Bits 63:0 of a CMD word (30_encoding.md R51). -/
def argField (w : CmdWord) : Word := w.extractLsb' 0 64

/-- The command a CMD word stands for: `op = 0` is EXTRACT with `arg` read unsigned, `op = 1` is
UNIFORM with `arg` read as two's complement (30_encoding.md R52, R53, R54). -/
def decodeWord (w : CmdWord) : Instr :=
  if opField w = 0#1 then .extract (argField w).toNat else .uniform (argField w).toInt

/-- Why a number is not a command. -/
inductive DecodeError where
  /-- The number has a bit above bit 64, so it is no CMD word (30_encoding.md R50: the format has one
  fixed length, 65 bits). -/
  | notACmdWord
  deriving DecidableEq, Repr

/-- Decoding of any number of bits, numbered as the opcode table numbers them: a number of at most 65
bits is the CMD word with those bits, a larger one is rejected by name (DEDUCED,
notes/assumptions/9.md). -/
def decodeBits (w : Nat) : Except DecodeError Instr :=
  if w < 2 ^ 65 then .ok (decodeWord (BitVec.ofNat 65 w)) else .error .notACmdWord

/-- The `arg` field of EXTRACT (30_encoding.md R53). -/
def extractArg (n : Nat) : Word := BitVec.ofNat 64 n

/-- The `arg` field of UNIFORM (30_encoding.md R54). -/
def uniformArg (bound : Int) : Word := BitVec.ofInt 64 bound

/-- The CMD word of a command: the concatenation of `op` and `arg`, `op` most significant
(30_encoding.md R51, R52). -/
def encode : Instr → CmdWord
  | .extract n => 0#1 ++ extractArg n
  | .uniform bound => 1#1 ++ uniformArg bound

/-- What the decoder reads from an opcode-table row's bits `w`; the whole command is one word of 65
bits and has no operand words after it, so the bits of `w` are all there is. -/
def decodeTableWord (_nbits w : Nat) : Option Instr :=
  match decodeBits w with
  | .ok i => some i
  | .error _ => none

end Sys2Proof
end

