-- ==== Sys2Proof/Machine/Operands.lean ====
section
/-! DEFINITION. The pure functions of the spec over operands and replies: which operands are valid,
`needBytes`, `assemble`, `mask` (40_bit_extractor.md R70 to R72), `bitlength`, `minBytes`
(41_min_bytes.md R90) and the range reducer's `bitsFor`, `isPow2`, `Mof`, `limitFor`
(42_range_reducer.md R100). Quantities the spec takes on unbounded integers are natural numbers here,
so neither the shift by 64 (70_reset_and_hazards.md R175) nor the wrapped `M` (R176) can occur. -/

namespace Sys2Proof.Machine

/-- EXTRACT accepts `arg`: `n ≤ 64`, `arg` read unsigned, no bit ignored (40_bit_extractor.md R74). -/
def extractValid (a : Word) : Bool := decide (a.toNat ≤ 64)

/-- UNIFORM accepts `arg`: `N = signed_64(arg) > 0` (42_range_reducer.md R102). -/
def uniformValid (a : Word) : Bool := decide (0 < a.toInt)

/-- `needBytes(n) = ceil(n / 8)` (40_bit_extractor.md R70). -/
def needBytes (n : Nat) : Nat := (n + 7) / 8

/-- `assemble(b0, b1, ...) = b0 + 2^8 * b1 + 2^16 * b2 + ...` on unbounded integers
(40_bit_extractor.md R71): little-endian, the first byte received is least significant. -/
def assembleNat : List Byte → Nat
  | [] => 0
  | b :: bs => b.toNat + 2 ^ 8 * assembleNat bs

/-- `assemble` as the 64-bit value BUF holds (40_bit_extractor.md R71; at most 8 bytes). -/
def assemble (bs : List Byte) : Word := BitVec.ofNat 64 (assembleNat bs)

/-- `mask(n)`: the low `n` bits are 1, the others 0 (40_bit_extractor.md R72). The value `2^n - 1` is
formed on natural numbers, so `mask 64` is all ones with no shift by 64. No run applies it with
`n > 64`; there it is all ones (DESIGN CHOICE, notes/assumptions/7.md). -/
def mask (n : Nat) : Word := BitVec.ofNat 64 (2 ^ n - 1)

/-- Byte `i` of a 64-bit value: bits `8i+7 : 8i` (00_scope.md R7). -/
def getByte (v : Word) (i : Nat) : Byte := v.extractLsb' (8 * i) 8

/-- `v` with bits `8i+7 : 8i` replaced by `b` and every other byte unchanged (00_scope.md R7,
40_bit_extractor.md R75). -/
def setByte (v : Word) (i : Nat) (b : Byte) : Word :=
  (v &&& ~~~((255#64) <<< (8 * i))) ||| ((b.setWidth 64) <<< (8 * i))

/-- The number of bits needed to write `v` in binary (00_scope.md R7). -/
def bitlength (v : Nat) : Nat := if v = 0 then 0 else Nat.log2 v + 1

/-- `minBytes(v) = ceil(bitlength(v) / 8)` (41_min_bytes.md R90). -/
def minBytes (v : Word) : Nat := (bitlength v.toNat + 7) / 8

/-- `bitsFor(N) = 8 * minBytes(N - 1)` (42_range_reducer.md R100, 41_min_bytes.md R92). -/
def bitsFor (a : Word) : Nat := 8 * minBytes (a - 1#64)

/-- `Mof(N) = 2^bitsFor(N)` on unbounded integers; `2^64` does not fit 64 bits
(42_range_reducer.md R100, R103). -/
def Mof (a : Word) : Nat := 2 ^ bitsFor a

/-- `limitFor(N) = M - (M mod N)`: the largest multiple of `N` not exceeding `M`
(42_range_reducer.md R100, R103). -/
def limitFor (a : Word) : Nat := Mof a - Mof a % a.toNat

end Sys2Proof.Machine
end

