-- ==== Sys2Proof/Machine/Ops.lean ====
section
/-! DEFINITION. The named operations the meanings share: an error's entry and the response that ends
every command (60_exceptions.md R143, 10_state.md R22), the source's answer to a request
(20_memory.md R31, R32), the BYTE step (40_bit_extractor.md R75), the RESET step
(70_reset_and_hazards.md R170), and the life of a command from ACCEPT to RESPOND (10_state.md R20). -/

namespace Sys2Proof.Machine

/-- `r = BUF & mask(BITS)` (10_state.md R13). -/
def Urr.r (u : Urr) : Word := u.buf &&& mask u.bits.toNat

/-- `raise` (60_exceptions.md R143): the one state change of both errors. OP, ARG, BITS and LIMIT keep
their values. Nothing is saved and control goes nowhere (R145). -/
def Urr.raise (code : Status) (u : Urr) : Urr :=
  { u with status := code, result := 0#64, buf := 0#64, cnt := 0#4, phase := .done }

/-- The register side of a successful FINISH: `RESULT <- v; STATUS <- OK; BUF <- 0; CNT <- 0;
PHASE <- DONE` (40_bit_extractor.md R76, 42_range_reducer.md R105, R106). -/
def Urr.complete (v : Word) (u : Urr) : Urr :=
  { u with result := v, status := .ok, buf := 0#64, cnt := 0#4, phase := .done }

/-- A rejected draw: `BUF <- 0; CNT <- 0`, everything else unchanged (42_range_reducer.md R107). -/
def Urr.redraw (u : Urr) : Urr := { u with buf := 0#64, cnt := 0#4 }

/-- A byte received: `BUF.byte[CNT] <- b; CNT <- CNT + 1` (40_bit_extractor.md R75). -/
def Urr.storeByte (b : Byte) (u : Urr) : Urr :=
  { u with buf := setByte u.buf u.cnt.toNat b, cnt := u.cnt + 1#4 }

/-- The registers at the start of the first fill of an accepted command: `BUF, CNT, STATUS, RESULT <- 0;
PHASE <- FILL`, with its BITS and LIMIT (40_bit_extractor.md R74, 42_range_reducer.md R102). -/
def Urr.startFill (bits : Nat) (limit : Nat) (u : Urr) : Urr :=
  { u with
    bits := BitVec.ofNat 7 bits
    limit := BitVec.ofNat 64 limit
    buf := 0#64
    cnt := 0#4
    status := .ok
    result := 0#64
    phase := .fill }

/-- What a command latches when it is accepted (40_bit_extractor.md R74, 42_range_reducer.md R102,
20_memory.md R45): `OP <- op; ARG <- arg`. -/
def Urr.latch (op : Op) (a : Word) (u : Urr) : Urr := { u with op := op, arg := a }

/-- The command held in OP and ARG (10_state.md R12), read as its command reads `arg`. -/
def Urr.inFlight (u : Urr) : Instr :=
  match u.op with
  | .extract => .extract u.arg.toNat
  | .uniform => .uniform u.arg.toInt

/-- The source's answer to the request outstanding: the next word of its script, and after the script
`Fail` from a fixed source and anything, or nothing ever, from an unconstrained one
(20_memory.md R31, R32). `none` is no reply. -/
def Source.answer (o : Source) : Option SrcrWord :=
  match o.script with
  | w :: _ => some w
  | [] =>
    match o.kind with
    | .fixed => some failWord
    | .unconstrained => Config.sourceReply o.served

/-- The source after a request it has answered: the reply is consumed and never given again
(20_memory.md R38). -/
def Source.consume (o : Source) : Source :=
  { o with script := o.script.tail, served := o.served + 1 }

/-- The source after `k` requests it has answered. -/
def Source.consumeN (k : Nat) (o : Source) : Source :=
  { o with script := o.script.drop k, served := o.served + k }

/-- A source that gives these replies in order and then behaves as `kind` says, at the start of its life
(20_memory.md R32, 30_encoding.md R61). -/
def Source.ofScript (kind : SourceKind) (script : List SrcrWord) : Source :=
  { script := script, kind := kind, served := 0 }

/-- BYTE (40_bit_extractor.md R75), when a request is outstanding: with a reply the block takes the byte
or raises SOURCE_ERROR and the reply is consumed; with none the block waits and keeps every register
(60_exceptions.md R160). -/
def byteStep (s : State) : State :=
  match s.src.answer with
  | none => s
  | some w =>
    match replyOf w with
    | .fail => { s with urr := s.urr.raise .sourceError, src := s.src.consume }
    | .byte b => { s with urr := s.urr.storeByte b, src := s.src.consume }

/-- RESPOND (10_state.md R22): HOST takes `{STATUS, RESULT}` as they are before the step and every
register is cleared. It is also the return from an error (60_exceptions.md R146). -/
def respondStep (s : State) : State :=
  { s with
    urr := Urr.zero
    host := { s.host with responses := s.host.responses ++ [s.urr.rsp] } }

/-- RESET (70_reset_and_hazards.md R170): every register is cleared and no response is delivered (R171).
Bytes consumed stay consumed; whether a request outstanding at this moment counts as consumed is the
source's matter, so `consumed` says it (93_implementation_defined.md U6; DESIGN CHOICE,
notes/assumptions/5.md). -/
def resetStep (consumed : Bool) (s : State) : State :=
  { s with
    urr := Urr.zero
    src := if consumed && s.urr.srcRequest then s.src.consume else s.src }

/-- A fill (10_state.md R20): BYTE while CNT < NEED, FINISH when CNT = NEED. Where CNT > NEED, which
no run reaches (R25), no step is enabled and the block waits (DESIGN CHOICE, notes/assumptions/7.md). -/
def fillStep (finish : Urr → Urr) (s : State) : State :=
  if s.urr.cnt.toNat < s.urr.need then byteStep s
  else if s.urr.cnt.toNat = s.urr.need then { s with urr := finish s.urr }
  else s

/-- The next step of the command with code `op` and operand `a` (10_state.md R20). In IDLE it is
presented and ACCEPT takes it. In FILL and DONE the block serves only the command in flight: if this is
it, its fill goes on or its response is taken; any other command word waits at the port, is not latched
and changes nothing (R20, 93_implementation_defined.md U18; DESIGN CHOICE, notes/assumptions/8.md). -/
def commandStep (op : Op) (a : Word) (accept finish : Urr → Urr) (s : State) : State :=
  match s.urr.phase with
  | .idle => { s with urr := accept s.urr }
  | .fill => if s.urr.op = op ∧ s.urr.arg = a then fillStep finish s else s
  | .done => if s.urr.op = op ∧ s.urr.arg = a then respondStep s else s

/-- The turn of this step: the head of the schedule, and `go` when none is planned (DESIGN CHOICE,
notes/assumptions/1.md). The list is finite, so HOST and the block hold back only finitely often: a
presented command is eventually accepted by an idle block and a waiting response eventually taken,
unless a RESET intervenes. The spec promises only FINISH (10_state.md R21, 92_eei_decisions.md D22), so
this is the model's choice too (DESIGN CHOICE, unsafe, notes/assumptions/10.md). -/
def State.turn (s : State) : Turn :=
  match s.schedule with
  | t :: _ => t
  | [] => .go

/-- The state with this step's turn used up. -/
def State.endTurn (s : State) : State := { s with schedule := s.schedule.tail }

/-- The command the block works on and the state it is run in: in IDLE the word HOST presents, which
leaves HOST's list because ACCEPT samples it once (20_memory.md R45), or none; otherwise the command in
flight (10_state.md R12), whatever HOST presents. -/
def State.fetch (s : State) : Option (Instr × State) :=
  match s.urr.phase with
  | .idle =>
    match s.host.commands with
    | [] => none
    | w :: ws => some (decodeWord w, { s with host := { s.host with commands := ws } })
  | _ => some (s.urr.inFlight, s)

/-- The state in which HOST presents this CMD word next, to an idle block, at a turn that lets ACCEPT
happen: what `withFetchWord` needs. An idle block's registers and a turn that is already `go` are left
as they are. -/
def State.present (w : CmdWord) (s : State) : State :=
  { s with
    urr := if s.urr.phase = .idle then s.urr else Urr.zero
    host := { s.host with commands := w :: s.host.commands }
    schedule := if s.turn = .go then s.schedule else .go :: s.schedule }

end Sys2Proof.Machine
end

