-- ==== Sys2Proof/Machine/BitExtractor.lean ====
section
/-! DEFINITION. EXTRACT: the bit extractor `bit_extractor_with_masking` (40_bit_extractor.md). -/

namespace Sys2Proof.Machine

/-- ACCEPT of EXTRACT (40_bit_extractor.md R74): latch, then refuse `n > 64` with INVALID_ARGUMENT before
any request, or start a fill of `n` bits. -/
def acceptExtract (a : Word) (u : Urr) : Urr :=
  if extractValid a then (u.latch .extract a).startFill a.toNat 0
  else (u.latch .extract a).raise .invalidArgument

/-- FINISH of EXTRACT (40_bit_extractor.md R76): `RESULT <- BUF & mask(BITS)`. -/
def finishExtract (u : Urr) : Urr := u.complete u.r

/-- EXTRACT n: its next step (ACCEPT R74, BYTE R75, FINISH R76, RESPOND 10_state.md R22). -/
def execExtract (n : Nat) (s : State) : Host.Outcome State Fault Refusal :=
  .next (commandStep .extract (extractArg n) (acceptExtract (extractArg n)) finishExtract s)

end Sys2Proof.Machine
end

