-- ==== Sys2Proof/Machine/RangeReducer.lean ====
section
/-! DEFINITION. UNIFORM: the range reducer (42_range_reducer.md). -/

namespace Sys2Proof.Machine

/-- ACCEPT of UNIFORM (42_range_reducer.md R102): latch, then refuse `N ≤ 0` with INVALID_ARGUMENT before
any request, or start a fill of `8 * minBytes(N - 1)` bits with LIMIT zero on the power-of-two path and
`limitFor(N)` on the general one. -/
def acceptUniform (a : Word) (u : Urr) : Urr :=
  if uniformValid a then
    (u.latch .uniform a).startFill (bitsFor a) (if isPow2 a then 0 else limitFor a)
  else (u.latch .uniform a).raise .invalidArgument

/-- FINISH of UNIFORM (42_range_reducer.md R105, R106, R107): on the power-of-two path
`RESULT <- r & (ARG - 1)`; on the general path `r` below LIMIT gives `RESULT <- r mod ARG` and any
other `r` is discarded and drawn again. -/
def finishUniform (u : Urr) : Urr :=
  if isPow2 u.arg then u.complete (u.r &&& (u.arg - 1#64))
  else if u.r.toNat < u.limit.toNat then u.complete (u.r % u.arg)
  else u.redraw

/-- UNIFORM N: its next step (ACCEPT R102, BYTE 40_bit_extractor.md R75, FINISH R105 to R107, RESPOND
10_state.md R22). -/
def execUniform (bound : Int) (s : State) : Host.Outcome State Fault Refusal :=
  .next (commandStep .uniform (uniformArg bound) (acceptUniform (uniformArg bound)) finishUniform s)

end Sys2Proof.Machine
end

