-- ==== Sys2Proof/Machine/Dispatch.lean ====
section
/-! DEFINITION. One arm per command. -/

namespace Sys2Proof.Machine

/-- The next step of command `i` (10_state.md R20): taken by an idle block, carried on by a block that
has it in flight. -/
def exec (i : Instr) (s : State) : Host.Outcome State Fault Refusal :=
  match i with
  | .extract n => Sys2Proof.Machine.execExtract n s
  | .uniform bound => Sys2Proof.Machine.execUniform bound s

end Sys2Proof.Machine
end

