-- ==== Sys2Proof/Machine/Step.lean ====
section
/-! DEFINITION. One step of the machine (10_state.md R20): the reset input first (70_reset_and_hazards.md
R170), else a turn in which nothing happens (R21), else the next step of the command the block works
on. -/

namespace Sys2Proof.Machine

/-- One step. Each step uses one turn of the schedule. -/
def step (s : State) : Host.Outcome State Fault Refusal :=
  match s.turn with
  | .reset consumed => .next (resetStep consumed s.endTurn)
  | .wait => .next s.endTurn
  | .go =>
    match s.endTurn.fetch with
    | none => .next s.endTurn
    | some (i, t) => exec i t

/-- `s` with the opcode-table word `w` presented next by HOST to an idle block, so that the very next
step accepts it (notes/assumptions/2.md). A number with a bit above bit 64 is no CMD word and changes
nothing. -/
def State.withFetchWord (s : State) (_nbits w : Nat) : State :=
  if w < 2 ^ 65 then s.present (BitVec.ofNat 65 w) else s

end Sys2Proof.Machine
end

