-- ==== Sys2Proof/Machine/Replies.lean ====
section
/-! DEFINITION. The two commands as functions of the source's replies: the spec's second description of
the same behaviour (40_bit_extractor.md R73, 42_range_reducer.md R101), for checking the step machine
against. Nothing of the step machine uses it. -/

namespace Sys2Proof.Machine

/-- A response: the two fields of the RSP word (30_encoding.md R55). -/
structure Response where
  status : Status
  result : Word
  deriving DecidableEq, Repr

/-- The RSP word of a response (30_encoding.md R55). -/
def Response.word (p : Response) : RspWord := p.status.code ++ p.result

/-- The response of a command that ends in an error: RESULT is 0 (30_encoding.md R57). -/
def Response.error (code : Status) : Response := { status := code, result := 0#64 }

/-- How a fill ends on a list of replies (20_memory.md R33, R39). -/
inductive FillEnd where
  /-- The list ended first: the source has not answered yet. -/
  | pending
  /-- The reply with this index was the first `Fail`. -/
  | failed (i : Nat)
  /-- All bytes came, in this order. -/
  | full (bs : List Byte)
  deriving DecidableEq, Repr

/-- A fill of `k` bytes over these replies, in order. -/
def fillOf : Nat → List Reply → FillEnd
  | 0, _ => .full []
  | _ + 1, [] => .pending
  | _ + 1, .fail :: _ => .failed 0
  | k + 1, .byte b :: ρ =>
    match fillOf k ρ with
    | .pending => .pending
    | .failed i => .failed (i + 1)
    | .full bs => .full (b :: bs)

/-- EXTRACT as a function of the replies (40_bit_extractor.md R73): the response and the number of
requests made, or `none` while the replies given do not yet end the command. -/
def extractReplies (n : Nat) (ρ : List Reply) : Option (Response × Nat) :=
  if 64 < n then some (.error .invalidArgument, 0)
  else
    match fillOf (needBytes n) ρ with
    | .pending => none
    | .failed i => some (.error .sourceError, i + 1)
    | .full bs => some ({ status := .ok, result := assemble bs &&& mask n }, needBytes n)

/-- The draws of UNIFORM over these replies, `used` of the command's requests being behind
(42_range_reducer.md R101). `fuel` bounds the number of draws looked at; on the general path every draw
takes at least one reply, so the length of the list and one more is enough. -/
def drawsOf (a : Word) : Nat → List Reply → Nat → Option (Response × Nat)
  | 0, _, _ => none
  | fuel + 1, ρ, used =>
    match fillOf (minBytes (a - 1#64)) ρ with
    | .pending => none
    | .failed i => some (.error .sourceError, used + (i + 1))
    | .full bs =>
      if isPow2 a then
        some ({ status := .ok, result := (assemble bs &&& mask (bitsFor a)) &&& (a - 1#64) },
          used + minBytes (a - 1#64))
      else if (assemble bs &&& mask (bitsFor a)).toNat < limitFor a then
        some ({ status := .ok, result := (assemble bs &&& mask (bitsFor a)) % a },
          used + minBytes (a - 1#64))
      else drawsOf a fuel (ρ.drop (minBytes (a - 1#64))) (used + minBytes (a - 1#64))

/-- UNIFORM as a function of the replies (42_range_reducer.md R101). -/
def uniformReplies (bound : Int) (ρ : List Reply) : Option (Response × Nat) :=
  if bound ≤ 0 then some (.error .invalidArgument, 0)
  else drawsOf (uniformArg bound) (ρ.length + 1) ρ 0

end Sys2Proof.Machine
end

