-- ==== Sys2Proof/Safety.lean ====
section
/-! DEFINITION. What counts as a safe run: the invariants of the registers that every state reachable
from reset meets (10_state.md R24 to R27). A run never ends in a fault or a refusal. -/

namespace Sys2Proof.Machine

/-- 10_state.md R24: in IDLE every register is zero; the idle state is one state. -/
def Urr.IdleInv (u : Urr) : Prop := u.phase = .idle → u = Urr.zero

/-- 10_state.md R25: what holds during a fill. -/
def Urr.FillInv (u : Urr) : Prop :=
  u.phase = .fill →
    u.status = .ok ∧ u.result = 0#64 ∧ u.bits.toNat ≤ 64 ∧ u.cnt.toNat ≤ u.need ∧ u.need ≤ 8 ∧
      ∀ i, i < 8 → u.cnt.toNat ≤ i → getByte u.buf i = 0#8

/-- 10_state.md R26: what a fill's command has latched and computed. -/
def Urr.OperandInv (u : Urr) : Prop :=
  u.phase = .fill →
    (u.op = .extract → u.arg.toNat ≤ 64 ∧ u.bits.toNat = u.arg.toNat ∧ u.limit = 0#64) ∧
      (u.op = .uniform →
        1 ≤ u.arg.toNat ∧ u.arg.toNat ≤ 2 ^ 63 - 1 ∧ u.bits.toNat = 8 * minBytes (u.arg - 1#64) ∧
          if u.pow2 then u.limit = 0#64
          else u.limit.toNat = 2 ^ u.bits.toNat - 2 ^ u.bits.toNat % u.arg.toNat ∧
            0 < u.limit.toNat ∧ u.limit.toNat < 2 ^ u.bits.toNat)

/-- 10_state.md R27: what holds while a response waits. -/
def Urr.DoneInv (u : Urr) : Prop :=
  u.phase = .done →
    u.buf = 0#64 ∧ u.cnt = 0#4 ∧ (u.status ≠ .ok → u.result = 0#64) ∧
      (u.status = .ok → u.op = .extract → u.result.toNat < 2 ^ u.arg.toNat) ∧
      (u.status = .ok → u.op = .uniform → u.result.toNat < u.arg.toNat)

/-- The invariants of 10_state.md R24, R25, R26 and R27 together. -/
structure Urr.Inv (u : Urr) : Prop where
  idle    : u.IdleInv
  fill    : u.FillInv
  operand : u.OperandInv
  done    : u.DoneInv

end Sys2Proof.Machine
end

