-- ==== Sys2Proof/Certificates/Slice0/Obligations.lean ====
section
/-! DEFINITION. The statements for the provers. Each says which rule of spec/ it formalises. -/

open Sys2Proof Sys2Proof.Machine

/-! ## Encodings -/

/-- 30_encoding.md R51 to R54, from the command's side: the CMD word of a well-formed command, whatever
its operand, reads back as that command. -/
def Obligations.DecodeOfEncodeIsTheCommand : Prop :=
  ∀ i : Instr, i.WellFormed → decodeWord (encode i) = i

/-- 30_encoding.md R51: every one of the `2^65` CMD words is a legal encoding of exactly one command
with exactly one operand value, `op` is bit 64 and `arg` bits 63:0, and decoding is total. -/
def Obligations.EveryCmdWordIsExactlyOneCommand : Prop :=
  ∀ w : CmdWord,
    (decodeWord w).WellFormed ∧ encode (decodeWord w) = w ∧
      (∀ i : Instr, i.WellFormed → encode i = w → i = decodeWord w) ∧
      (opField w).toNat = w.toNat / 2 ^ 64 ∧ (argField w).toNat = w.toNat % 2 ^ 64 ∧
      decodeBits w.toNat = .ok (decodeWord w)

/-- 30_encoding.md R52 with R53 and R54: the match and mask of the opcode map, and how each command
reads its operand. -/
def Obligations.OpcodeMapSelectsTheCommand : Prop :=
  ∀ w : CmdWord,
    (w &&& 0x10000000000000000#65 = 0#65 → decodeWord w = .extract (w.toNat % 2 ^ 64)) ∧
      (w &&& 0x10000000000000000#65 = 0x10000000000000000#65 →
        decodeWord w = .uniform
          (if w.toNat % 2 ^ 64 < 2 ^ 63 then (w.toNat % 2 ^ 64 : Int)
            else (w.toNat % 2 ^ 64 : Int) - 2 ^ 64))

/-- 30_encoding.md R60: the three CMD words written out there, and that a number of more than 65 bits is
no CMD word (R50). -/
def Obligations.SpecWordsDecode : Prop :=
  decodeBits 0x00000000000000010 = .ok (.extract 16) ∧
    decodeBits 0x1000000000000000A = .ok (.uniform 10) ∧
    decodeBits 0x1FFFFFFFFFFFFFFFF = .ok (.uniform (-1)) ∧
    decodeBits 0x20000000000000000 = .error .notACmdWord

/-- 30_encoding.md R58: all reply words are legal; `fail = 1` is `Fail` whatever `data` holds, else the
reply is the byte in bits 7:0. -/
def Obligations.ReplyWordFormat : Prop :=
  ∀ w : SrcrWord, replyOf w = if w.getLsbD 8 then .fail else .byte (BitVec.ofNat 8 (w.toNat % 256))

/-! ## The step relation -/

/-- 10_state.md R20 with R21, R22 and 70_reset_and_hazards.md R170: whatever the state, a step answers a
next state (nothing stops the machine), and what it leaves in the registers is given by the step table:
RESET clears them; a turn in which nothing happens keeps them; in IDLE a presented command is accepted
and without one nothing changes; in FILL a missing byte is taken if the source replies, and with CNT =
NEED the command in flight is finished; in DONE the response is delivered. That a list of turns says
whether an enabled step happens is the model's choice (notes/assumptions/1.md). -/
def Obligations.StepFollowsTheStepTable : Prop :=
  ∀ s : State, ∃ t, step s = .next t ∧
    match s.turn with
    | .reset _ => t.urr = Urr.zero
    | .wait => t.urr = s.urr
    | .go =>
      match s.urr.phase with
      | .idle =>
        (s.host.commands = [] → t.urr = s.urr) ∧
          ∀ w ws, s.host.commands = w :: ws →
            (opField w = 0#1 → t.urr = acceptExtract (argField w) s.urr) ∧
              (opField w = 1#1 → t.urr = acceptUniform (argField w) s.urr)
      | .fill =>
        (s.urr.cnt.toNat < s.urr.need →
          (s.src.answer = none → t.urr = s.urr) ∧
            ∀ w, s.src.answer = some w →
              (w.getLsbD 8 = true → t.urr = s.urr.raise .sourceError) ∧
                (w.getLsbD 8 = false → t.urr = s.urr.storeByte (w.extractLsb' 0 8))) ∧
          (s.urr.cnt.toNat = s.urr.need →
            (s.urr.op = .extract → t.urr = finishExtract s.urr) ∧
              (s.urr.op = .uniform → t.urr = finishUniform s.urr))
      | .done => t.urr = Urr.zero

/-- 10_state.md R20, 30_encoding.md R52: an idle block whose turn it is runs the command that the word
HOST presents decodes to; the step uses up one turn (the model's choice, notes/assumptions/1.md) and
takes the word from HOST's list (the model's choice, notes/assumptions/2.md). -/
def Obligations.StepRunsThePresentedCommand : Prop :=
  ∀ (s : State) (w : CmdWord) (ws : List CmdWord) (i : Instr),
    s.turn = .go → s.urr.phase = .idle → s.host.commands = w :: ws →
    decodeWord w = i → i.WellFormed →
    step s = exec i
      { s with host := { s.host with commands := ws }, schedule := s.schedule.tail }

/-- 10_state.md R12, R20: a busy block whose turn it is runs the command held in OP and ARG; the step
uses up one turn. Turns, and running a busy block's next step as its command's, are the model's choices
(notes/assumptions/1.md, 8.md). -/
def Obligations.StepRunsTheCommandInFlight : Prop :=
  ∀ s : State, s.turn = .go → s.urr.phase ≠ .idle →
    step s = exec
      (match s.urr.op with
        | .extract => .extract s.urr.arg.toNat
        | .uniform => .uniform s.urr.arg.toInt)
      { s with schedule := s.schedule.tail }

/-- The model's `withFetchWord` (notes/assumptions/2.md): the very next step runs the command placed,
from every state. -/
def Obligations.PlacedWordRunsNext : Prop :=
  ∀ (s : State) (nbits w : Nat) (i : Instr), decodeTableWord nbits w = some i →
    ∃ t : State, step (s.withFetchWord nbits w) = exec i t ∧ t.urr.phase = .idle ∧
      t.src = s.src ∧ t.host = s.host ∧ (s.urr.phase = .idle → t.urr = s.urr)

/-! ## ACCEPT -/

/-- 40_bit_extractor.md R74: ACCEPT of EXTRACT. `n ≤ 64` starts a fill of `n` bits; a larger `n` raises
InvalidArgument at once, BITS and LIMIT staying as they are. -/
def Obligations.ExtractIsAccepted : Prop :=
  ∀ (s : State) (n : Nat), s.urr.phase = .idle →
    (n ≤ 64 →
      exec (.extract n) s = .next { s with urr :=
        { phase := .fill, op := .extract, arg := BitVec.ofNat 64 n, bits := BitVec.ofNat 7 n,
          limit := 0#64, buf := 0#64, cnt := 0#4, status := .ok, result := 0#64 } }) ∧
    (64 < n → n < 2 ^ 64 →
      exec (.extract n) s = .next { s with urr :=
        { phase := .done, op := .extract, arg := BitVec.ofNat 64 n, bits := s.urr.bits,
          limit := s.urr.limit, buf := 0#64, cnt := 0#4, status := .invalidArgument,
          result := 0#64 } })

/-- 42_range_reducer.md R102: ACCEPT of UNIFORM. `N ≥ 1` starts a fill of `8 * minBytes(N - 1)` bits
with LIMIT 0 if `N` is a power of two and `limitFor(N)` otherwise; `N ≤ 0` raises InvalidArgument at
once, BITS and LIMIT staying as they are. -/
def Obligations.UniformIsAccepted : Prop :=
  ∀ (s : State) (N : Int), s.urr.phase = .idle →
    (1 ≤ N → N < 2 ^ 63 →
      exec (.uniform N) s = .next { s with urr :=
        { phase := .fill, op := .uniform, arg := BitVec.ofInt 64 N,
          bits := BitVec.ofNat 7 (8 * minBytes (BitVec.ofNat 64 (N.toNat - 1))),
          limit :=
            if N.toNat &&& (N.toNat - 1) = 0 then 0#64
            else BitVec.ofNat 64 (limitFor (BitVec.ofInt 64 N)),
          buf := 0#64, cnt := 0#4, status := .ok, result := 0#64 } }) ∧
    (-(2 ^ 63) ≤ N → N ≤ 0 →
      exec (.uniform N) s = .next { s with urr :=
        { phase := .done, op := .uniform, arg := BitVec.ofInt 64 N, bits := s.urr.bits,
          limit := s.urr.limit, buf := 0#64, cnt := 0#4, status := .invalidArgument,
          result := 0#64 } })

/-- 20_memory.md R45: the command word is sampled once, by ACCEPT, into OP and ARG; what HOST drives on
CMD while the block is busy has no effect on the step. That the word leaves a list of HOST's is the
model's choice (notes/assumptions/2.md). -/
def Obligations.CommandIsSampledOnce : Prop :=
  (∀ (s t : State) (w : CmdWord) (ws : List CmdWord),
    s.turn = .go → s.urr.phase = .idle → s.host.commands = w :: ws → step s = .next t →
    t.urr.op.code = opField w ∧ t.urr.arg = argField w ∧ t.host.commands = ws) ∧
  (∀ (s t : State) (other : List CmdWord),
    s.urr.phase ≠ .idle → step s = .next t →
    step { s with host := { s.host with commands := other } } =
      .next { t with host := { t.host with commands := other } } ∧
    t.host.commands = s.host.commands ∧ (t.urr.phase ≠ .idle → t.urr.op = s.urr.op ∧ t.urr.arg = s.urr.arg))

/-- 10_state.md R20, 93_implementation_defined.md U18: a command other than the one in flight, presented
to a busy block, is not served and changes nothing. That `exec` answers the unchanged state for it is
the model's choice (notes/assumptions/8.md). -/
def Obligations.BusyBlockServesNoOtherCommand : Prop :=
  ∀ (s : State) (i : Instr), i.WellFormed → s.urr.phase ≠ .idle → i ≠ s.urr.inFlight →
    exec i s = .next s

/-! ## BYTE -/

/-- 40_bit_extractor.md R75: BYTE, for EXTRACT and UNIFORM alike. A byte goes to `BUF.byte[CNT]`, the
other bytes stay, CNT counts up, and this is the same as an OR with the byte shifted up; a `Fail`
raises SourceError and the gathered bytes are wiped. One reply is consumed; OP, ARG, BITS, LIMIT and
everything else keep their values. That a consumed reply leaves the source's list and counts up
`served` is the model's choice (notes/assumptions/3.md, DESIGN CHOICE). -/
def Obligations.SourceReplyIsTaken : Prop :=
  ∀ (s : State) (w : SrcrWord), s.urr.FillInv → s.urr.phase = .fill →
    s.urr.cnt.toNat < s.urr.need → s.src.answer = some w →
    (w.getLsbD 8 = false →
      ∃ v : Word,
        exec s.urr.inFlight s = .next { s with
          urr := { s.urr with buf := v, cnt := BitVec.ofNat 4 (s.urr.cnt.toNat + 1) }
          src := { s.src with script := s.src.script.tail, served := s.src.served + 1 } } ∧
        (∀ k, k < 8 → getByte v k =
          if k = s.urr.cnt.toNat then w.extractLsb' 0 8 else getByte s.urr.buf k) ∧
        v = s.urr.buf ||| ((w.extractLsb' 0 8).setWidth 64 <<< (8 * s.urr.cnt.toNat))) ∧
    (w.getLsbD 8 = true →
      exec s.urr.inFlight s = .next { s with
        urr := { s.urr with
          phase := .done, buf := 0#64, cnt := 0#4, status := .sourceError, result := 0#64 }
        src := { s.src with script := s.src.script.tail, served := s.src.served + 1 } })

/-- 60_exceptions.md R160 and 10_state.md R21: while the block waits, for a command, for a reply or for
its turn, all registers, HOST's lists and the source keep their values; only the turn is used up
(turns are the model's choice, notes/assumptions/1.md). -/
def Obligations.WaitingKeepsEverything : Prop :=
  ∀ s : State,
    (s.turn = .wait ∨
      (s.turn = .go ∧ s.urr.phase = .idle ∧ s.host.commands = []) ∨
      (s.turn = .go ∧ s.urr.phase = .fill ∧ s.urr.cnt.toNat < s.urr.need ∧ s.src.answer = none)) →
    step s = .next { s with schedule := s.schedule.tail }

/-- 20_memory.md R32 item 2: the fixed source answers its `i`-th request, counted over its life, with
the `i`-th byte of its list, and with `Fail` once the list is used up. The form of the source is the
model's choice (notes/assumptions/3.md). -/
def Obligations.FixedSourceGivesItsListThenFails : Prop :=
  ∀ (bs : List Byte) (i : Nat),
    (((Source.ofScript .fixed (bs.map byteWord)).consumeN i).answer).map replyOf =
      some (match bs[i]? with
        | some b => .byte b
        | none => .fail)

/-- 10_state.md R16 and R20, 20_memory.md R31 and R38: the source is read only while a byte request is
outstanding, and then by at most one reply a step; its kind never changes. The form of the source is
the model's choice (notes/assumptions/3.md). -/
def Obligations.SourceIsReadOnlyOnRequest : Prop :=
  ∀ s t : State, step s = .next t →
    (s.urr.srcRequest = false → t.src = s.src) ∧ (t.src = s.src ∨ t.src = s.src.consume) ∧
      (s.urr.srcRequest = true ↔ s.urr.phase = .fill ∧ s.urr.cnt.toNat < s.urr.need)

/-! ## FINISH and RESPOND -/

/-- 40_bit_extractor.md R76: FINISH of EXTRACT. -/
def Obligations.ExtractFinishes : Prop :=
  ∀ (s : State) (n : Nat), s.urr.phase = .fill → s.urr.op = .extract →
    s.urr.arg = BitVec.ofNat 64 n → s.urr.cnt.toNat = s.urr.need →
    exec (.extract n) s = .next { s with urr :=
      { s.urr with
        result := s.urr.buf &&& mask s.urr.bits.toNat
        status := .ok, buf := 0#64, cnt := 0#4, phase := .done } }

/-- 42_range_reducer.md R105: FINISH of UNIFORM on the power-of-two path. -/
def Obligations.UniformFinishesOnThePowerOfTwoPath : Prop :=
  ∀ (s : State) (N : Int), s.urr.phase = .fill → s.urr.op = .uniform →
    s.urr.arg = BitVec.ofInt 64 N → s.urr.cnt.toNat = s.urr.need →
    s.urr.arg &&& (s.urr.arg - 1#64) = 0#64 →
    exec (.uniform N) s = .next { s with urr :=
      { s.urr with
        result := (s.urr.buf &&& mask s.urr.bits.toNat) &&& (s.urr.arg - 1#64)
        status := .ok, buf := 0#64, cnt := 0#4, phase := .done } }

/-- 42_range_reducer.md R106: FINISH of UNIFORM on the general path, a draw below LIMIT. -/
def Obligations.UniformAcceptsADrawBelowTheLimit : Prop :=
  ∀ (s : State) (N : Int), s.urr.phase = .fill → s.urr.op = .uniform →
    s.urr.arg = BitVec.ofInt 64 N → s.urr.cnt.toNat = s.urr.need →
    s.urr.arg &&& (s.urr.arg - 1#64) ≠ 0#64 →
    (s.urr.buf &&& mask s.urr.bits.toNat).toNat < s.urr.limit.toNat →
    exec (.uniform N) s = .next { s with urr :=
      { s.urr with
        result := BitVec.ofNat 64 ((s.urr.buf &&& mask s.urr.bits.toNat).toNat % s.urr.arg.toNat)
        status := .ok, buf := 0#64, cnt := 0#4, phase := .done } }

/-- 42_range_reducer.md R107: FINISH of UNIFORM on the general path, a draw not below LIMIT: the draw is
discarded and the next one begins, with nothing else changed. Under R26 (the general path has a fill of
at least one byte, R108) the next step is a BYTE. -/
def Obligations.UniformDiscardsADrawAtOrAboveTheLimit : Prop :=
  ∀ (s : State) (N : Int), s.urr.phase = .fill → s.urr.op = .uniform →
    s.urr.arg = BitVec.ofInt 64 N → s.urr.cnt.toNat = s.urr.need →
    s.urr.arg &&& (s.urr.arg - 1#64) ≠ 0#64 →
    s.urr.limit.toNat ≤ (s.urr.buf &&& mask s.urr.bits.toNat).toNat →
    exec (.uniform N) s = .next { s with urr := { s.urr with buf := 0#64, cnt := 0#4 } } ∧
      (s.urr.OperandInv → ({ s.urr with buf := 0#64, cnt := 0#4 } : Urr).srcRequest = true)

/-- 30_encoding.md R55 with 10_state.md R22: RESPOND, for EXTRACT and UNIFORM alike. HOST takes the word
whose bits 65:64 are STATUS and bits 63:0 RESULT as they are before the step, and every register is
cleared. -/
def Obligations.ResponseIsDelivered : Prop :=
  ∀ s : State, s.urr.phase = .done →
    ∃ w : RspWord,
      exec s.urr.inFlight s = .next { s with
        urr :=
          { phase := .idle, op := .extract, arg := 0#64, bits := 0#7, limit := 0#64,
            buf := 0#64, cnt := 0#4, status := .ok, result := 0#64 }
        host := { s.host with responses := s.host.responses ++ [w] } } ∧
      w.extractLsb' 64 2 = s.urr.status.code ∧ w.extractLsb' 0 64 = s.urr.result

/-- 10_state.md R22, 70_reset_and_hazards.md R171 and R177: exactly one response per accepted command
unless a RESET intervenes. The commands HOST has still to present, the one in flight and the responses
HOST has taken are together as many after a step as before; RESET drops the one in flight without a
response. Turns and HOST's two lists are the model's choices (notes/assumptions/1.md, 2.md). -/
def Obligations.OneResponsePerAcceptedCommand : Prop :=
  ∀ s t : State, step s = .next t →
    ((∀ c, s.turn ≠ .reset c) →
      t.host.commands.length + (if t.urr.phase = .idle then 0 else 1) + t.host.responses.length =
        s.host.commands.length + (if s.urr.phase = .idle then 0 else 1) + s.host.responses.length) ∧
    ((∃ c, s.turn = .reset c) → t.host = s.host ∧ t.urr.phase = .idle) ∧
    (t.host.responses = s.host.responses ∨ ∃ w, t.host.responses = s.host.responses ++ [w])

/-- 30_encoding.md R56 and R57: what a delivered word can hold, given the invariants of 10_state.md R24
to R27: never status `0b11`, and result 0 with any error. -/
def Obligations.DeliveredWordsAreWellFormed : Prop :=
  ∀ s t : State, s.urr.Inv → step s = .next t →
    t.host.responses = s.host.responses ∨
      ∃ w : RspWord, t.host.responses = s.host.responses ++ [w] ∧
        w.extractLsb' 64 2 ≠ 3#2 ∧ (w.extractLsb' 64 2 ≠ 0#2 → w.extractLsb' 0 64 = 0#64)

/-! ## Frames -/

/-- What the next step of either command leaves unchanged, from 10_state.md R20, R22,
40_bit_extractor.md R74 to R76 and 42_range_reducer.md R102 to R107. A command's step never changes
HOST's commands, the schedule or the source's kind; only RESPOND adds a response; only an outstanding
request reads the source; and within a fill OP, ARG, BITS and LIMIT stay, a byte that arrives leaves
STATUS and RESULT as well, and every byte of BUF but byte CNT. The block has no memory (10_state.md R15).
The schedule, HOST's lists and the form of the source are the model's choices (notes/assumptions/1.md,
2.md, 3.md). -/
def Obligations.CommandFrame : Prop :=
  ∀ (i : Instr) (s t : State), exec i s = .next t →
    t.schedule = s.schedule ∧ t.host.commands = s.host.commands ∧ t.src.kind = s.src.kind ∧
      (s.urr.phase ≠ .done → t.host.responses = s.host.responses) ∧
      (s.urr.srcRequest = false → t.src = s.src) ∧
      (s.urr.phase = .fill →
        t.urr.op = s.urr.op ∧ t.urr.arg = s.urr.arg ∧ t.urr.bits = s.urr.bits ∧
          t.urr.limit = s.urr.limit) ∧
      (s.urr.srcRequest = true → t.urr.phase = .fill →
        t.urr.status = s.urr.status ∧ t.urr.result = s.urr.result ∧
          ∀ k, k < 8 → k ≠ s.urr.cnt.toNat → getByte t.urr.buf k = getByte s.urr.buf k)

/-! ## RESET and the invariants -/

/-- 10_state.md R28: after reset every register of R11 is zero and PHASE = IDLE. -/
def Obligations.ResetLeavesEveryRegisterZero : Prop :=
  State.reset.urr.phase = .idle ∧ State.reset.urr.op.code = 0#1 ∧ State.reset.urr.arg = 0#64 ∧
    State.reset.urr.bits = 0#7 ∧ State.reset.urr.limit = 0#64 ∧ State.reset.urr.buf = 0#64 ∧
    State.reset.urr.cnt = 0#4 ∧ State.reset.urr.status.code = 0#2 ∧ State.reset.urr.result = 0#64

/-- 70_reset_and_hazards.md R170, R171: RESET can occur in any state and takes priority; every register
is cleared, no response is delivered and HOST's lists stay; the source keeps what was consumed
consumed, and a request outstanding at that moment counts as consumed or not as the turn says (the
model's choice, notes/assumptions/5.md; both are behaviours of the model). -/
def Obligations.ResetClearsTheBlockInAnyState : Prop :=
  ∀ (s : State) (c : Bool), s.turn = .reset c →
    step s = .next
      { urr :=
          { phase := .idle, op := .extract, arg := 0#64, bits := 0#7, limit := 0#64,
            buf := 0#64, cnt := 0#4, status := .ok, result := 0#64 }
        host := s.host
        src :=
          if c = true ∧ s.urr.phase = .fill ∧ s.urr.cnt.toNat < s.urr.need then
            { s.src with script := s.src.script.tail, served := s.src.served + 1 }
          else s.src
        schedule := s.schedule.tail }

/-- The reset state meets the invariants of 10_state.md R24 to R27. -/
def Obligations.ResetMeetsTheRegisterInvariants : Prop := State.reset.urr.Inv

/-- 10_state.md R24, R25, R26, R27: every step keeps them, from every state that meets them, whatever
HOST, the source and the reset input do. -/
def Obligations.StepKeepsTheRegisterInvariants : Prop :=
  ∀ s t : State, s.urr.Inv → step s = .next t → t.urr.Inv

/-- 10_state.md R24, R25, R26, R27: they hold in every state reachable from reset by the steps, with any
commands, any source and any schedule. -/
def Obligations.RegisterInvariantsHoldOnEveryRun : Prop :=
  ∀ (s t : State) (k : Nat), s.urr = State.reset.urr → core.run k s = .next t → t.urr.Inv

/-- 10_state.md R24: the outcome of commands does not depend on any earlier command except through the
source. Two idle machines with the same commands, source and schedule run alike for any number of
steps and deliver the same further responses, whatever each has delivered before. The schedule, HOST's
lists and the form of the source are the model's choices (notes/assumptions/1.md, 2.md, 3.md). -/
def Obligations.EarlierCommandsDoNotMatter : Prop :=
  ∀ (s u t : State) (k : Nat), s.urr.Inv → u.urr.Inv → s.urr.phase = .idle → u.urr.phase = .idle →
    u.src = s.src → u.schedule = s.schedule → u.host.commands = s.host.commands →
    core.run k s = .next t →
    ∃ more, t.host.responses = s.host.responses ++ more ∧
      core.run k u = .next { t with host := { t.host with responses := u.host.responses ++ more } }

/-! ## Errors -/

/-- 60_exceptions.md R141: INVALID_ARGUMENT is raised in the ACCEPT step and only there, exactly for
EXTRACT with `arg > 64` unsigned and UNIFORM with `arg ≤ 0` signed; the source is not touched and the
block goes straight to DONE. Turns and HOST's list are the model's (notes/assumptions/1.md, 2.md). -/
def Obligations.InvalidArgumentExactly : Prop :=
  ∀ s t : State, s.urr.status ≠ .invalidArgument → step s = .next t →
    (t.urr.status = .invalidArgument ↔
      s.turn = .go ∧ s.urr.phase = .idle ∧ ∃ w ws, s.host.commands = w :: ws ∧
        ((opField w = 0#1 ∧ 64 < (argField w).toNat) ∨ (opField w = 1#1 ∧ (argField w).toInt ≤ 0))) ∧
    (t.urr.status = .invalidArgument → t.src = s.src ∧ t.urr.phase = .done ∧ t.urr.result = 0#64)

/-- 60_exceptions.md R142: SOURCE_ERROR is raised in a BYTE step and only there, exactly when the reply
is `Fail`; a command whose fill is empty cannot raise it. Turns are the model's choice
(notes/assumptions/1.md). -/
def Obligations.SourceErrorExactly : Prop :=
  ∀ s t : State, s.urr.status ≠ .sourceError → step s = .next t →
    (t.urr.status = .sourceError ↔
      s.turn = .go ∧ s.urr.phase = .fill ∧ s.urr.cnt.toNat < s.urr.need ∧
        ∃ w, s.src.answer = some w ∧ w.getLsbD 8 = true) ∧
    (s.urr.bits = 0#7 → t.urr.status ≠ .sourceError)

/-! ## The pure functions -/

/-- 40_bit_extractor.md R72: `mask(n)` is the 64-bit value whose low `n` bits are 1 and whose others are
0, `2^n - 1` on unbounded integers; `mask(64)` is all ones. -/
def Obligations.MaskKeepsTheLowBits : Prop :=
  (∀ n i, n ≤ 64 → i < 64 → (mask n).getLsbD i = decide (i < n)) ∧
    (∀ n, n ≤ 64 → (mask n).toNat = 2 ^ n - 1) ∧ mask 64 = 0xFFFFFFFFFFFFFFFF#64

/-- 40_bit_extractor.md R71, 20_memory.md R34: `assemble` of `k ≤ 8` bytes is the sum of `2^(8i)` times
byte `i`, is below `2^(8k)`, and is what BUF holds after `k` BYTE steps that received these bytes in
this order into an empty buffer.
The premise of an empty schedule makes every enabled step happen, which is the model's choice
(notes/assumptions/1.md, DESIGN CHOICE, unsafe); the source's list and
its counter `served` are too (notes/assumptions/3.md, DESIGN CHOICE). -/
def Obligations.BufHoldsTheAssembledBytes : Prop :=
  ∀ (bs : List Byte) (rest : List SrcrWord) (s : State), bs.length ≤ 8 →
    (assemble bs).toNat = ((List.range bs.length).map fun i => 2 ^ (8 * i) * (bs.getD i 0#8).toNat).sum ∧
    (assemble bs).toNat < 2 ^ (8 * bs.length) ∧
    (s.urr.phase = .fill → s.urr.buf = 0#64 → s.urr.cnt = 0#4 → bs.length ≤ s.urr.need →
      s.schedule = [] → s.src.script = bs.map byteWord ++ rest →
      core.run bs.length s = .next { s with
        urr := { s.urr with buf := assemble bs, cnt := BitVec.ofNat 4 bs.length }
        src := { s.src with script := rest, served := s.src.served + bs.length } })

/-- 41_min_bytes.md R90: `minBytes(v) = ceil(bitlength(v) / 8)` with `minBytes(0) = 0`; it is in `0..8`,
is the least `k` with `v < 2^(8k)`, and is one more than the index of the most significant non-zero
byte. -/
def Obligations.MinBytesIsTheLeastByteCount : Prop :=
  ∀ v : Word,
    minBytes v = (Nat.size v.toNat + 7) / 8 ∧ (v = 0#64 → minBytes v = 0) ∧ minBytes v ≤ 8 ∧
      v.toNat < 2 ^ (8 * minBytes v) ∧ (∀ k, v.toNat < 2 ^ (8 * k) → minBytes v ≤ k) ∧
      (v ≠ 0#64 → 1 ≤ minBytes v ∧ getByte v (minBytes v - 1) ≠ 0#8) ∧
      (∀ i, i < 8 → minBytes v ≤ i → getByte v i = 0#8)

/-- 41_min_bytes.md R93: monotone, and 8 exactly from `2^56` on. -/
def Obligations.MinBytesIsMonotone : Prop :=
  (∀ v w : Word, v.toNat ≤ w.toNat → minBytes v ≤ minBytes w) ∧
    ∀ v : Word, minBytes v = 8 ↔ 2 ^ 56 ≤ v.toNat

/-- 42_range_reducer.md R108: `bitsFor(N)` is the least multiple of 8 whose power of two reaches `N`,
and its consequences. -/
def Obligations.BitsForIsTheLeastWidth : Prop :=
  ∀ a : Word, 1 ≤ a.toNat → a.toNat < 2 ^ 63 →
    8 ∣ bitsFor a ∧ a.toNat ≤ 2 ^ bitsFor a ∧ (∀ b, 8 ∣ b → a.toNat ≤ 2 ^ b → bitsFor a ≤ b) ∧
      (8 ≤ bitsFor a → Mof a / 256 < a.toNat) ∧ (bitsFor a = 0 ↔ a.toNat = 1) ∧
      (isPow2 a = false → 3 ≤ a.toNat ∧ 8 ≤ bitsFor a) ∧ (bitsFor a = 64 ↔ 2 ^ 56 < a.toNat)

/-- 42_range_reducer.md R103: on the general path the limit is the largest multiple of `N` not exceeding
`M`; the document's formula on unbounded integers and the wrapped 64-bit formula give the same
number. -/
def Obligations.LimitFormulasAgree : Prop :=
  ∀ a : Word, 1 ≤ a.toNat → a.toNat < 2 ^ 63 → isPow2 a = false →
    limitFor a = 2 ^ bitsFor a - 2 ^ bitsFor a % a.toNat ∧
      limitFor a = Mof a - (Mof a - a.toNat) % a.toNat ∧
      BitVec.ofNat 64 (limitFor a) =
        BitVec.ofNat 64 (Mof a) - (BitVec.ofNat 64 (Mof a) - a) % a ∧
      a.toNat ∣ limitFor a ∧ limitFor a ≤ Mof a ∧
      ∀ m, a.toNat ∣ m → m ≤ Mof a → m ≤ limitFor a

/-- 42_range_reducer.md R109: on the general path the limit is a multiple of `N`, is below `M` and above
`M / 2`, so less than half of the draws are rejected, and is at least `N`. -/
def Obligations.MoreThanHalfOfTheDrawsAreAccepted : Prop :=
  ∀ a : Word, 1 ≤ a.toNat → a.toNat < 2 ^ 63 → isPow2 a = false →
    a.toNat ∣ limitFor a ∧ Mof a % a.toNat ≠ 0 ∧ limitFor a < Mof a ∧ Mof a < 2 * limitFor a ∧
      2 * (Mof a - limitFor a) < Mof a ∧ Mof a - limitFor a = Mof a % a.toNat ∧
      0 < a.toNat ∧ a.toNat ≤ limitFor a

/-- 42_range_reducer.md R111: the counting facts of uniformity. General path: each `x < N` has exactly
`limit / N` preimages below the limit. Power-of-two path: each `x < N` has exactly `M / N` preimages
below `M`. -/
def Obligations.EveryResultHasTheSameNumberOfDraws : Prop :=
  ∀ a : Word, 1 ≤ a.toNat → a.toNat < 2 ^ 63 →
    (isPow2 a = false → ∀ x, x < a.toNat →
      ((Finset.range (limitFor a)).filter fun r => r % a.toNat = x).card = limitFor a / a.toNat) ∧
    (isPow2 a = true → ∀ x, x < a.toNat →
      ((Finset.range (Mof a)).filter fun r => r &&& (a.toNat - 1) = x).card = Mof a / a.toNat)

/-- 42_range_reducer.md R105 to R107 and R111, at the registers: in a UNIFORM fill that meets the
invariants, as many values of BUF below `2^BITS` make FINISH complete with result `x` as with result
`y`, for any two `x, y` below ARG. -/
def Obligations.UniformFinishIsUnbiased : Prop :=
  ∀ u : Urr, u.OperandInv → u.phase = .fill → u.op = .uniform →
    ∀ x y, x < u.arg.toNat → y < u.arg.toNat →
      ((Finset.range (2 ^ u.bits.toNat)).filter fun v =>
        (finishUniform { u with buf := BitVec.ofNat 64 v }).phase = .done ∧
          (finishUniform { u with buf := BitVec.ofNat 64 v }).result.toNat = x).card =
      ((Finset.range (2 ^ u.bits.toNat)).filter fun v =>
        (finishUniform { u with buf := BitVec.ofNat 64 v }).phase = .done ∧
          (finishUniform { u with buf := BitVec.ofNat 64 v }).result.toNat = y).card

/-- 40_bit_extractor.md R80, R76: of the `2^(8k)` values an EXTRACT fill of `k` bytes can put in BUF,
each of the `2^n` results has exactly `2^(8k - n)`. -/
def Obligations.ExtractFinishIsUnbiased : Prop :=
  ∀ (u : Urr) (n x : Nat), n ≤ 64 → u.bits.toNat = n → x < 2 ^ n →
    ((Finset.range (2 ^ (8 * needBytes n))).filter fun v =>
      (finishExtract { u with buf := BitVec.ofNat 64 v }).result.toNat = x).card =
      2 ^ (8 * needBytes n - n)

/-! ## Results -/

/-- 40_bit_extractor.md R77: the result of EXTRACT has no bit set at position `n` or above: below `2^n`
for `n ≤ 63`, any 64-bit value for `n = 64`. -/
def Obligations.ExtractResultHasOnlyTheRequestedBits : Prop :=
  ∀ (s : State) (n : Nat), n ≤ 64 → s.urr.FillInv → s.urr.OperandInv → s.urr.phase = .fill →
    s.urr.op = .extract → s.urr.arg = BitVec.ofNat 64 n → s.urr.cnt.toNat = s.urr.need →
    ∃ t, exec (.extract n) s = .next t ∧ t.urr.phase = .done ∧ t.urr.status = .ok ∧
      (∀ i, n ≤ i → t.urr.result.getLsbD i = false) ∧ (n ≤ 63 → t.urr.result.toNat < 2 ^ n) ∧
      (n = 64 → t.urr.result = s.urr.buf)

/-- 42_range_reducer.md R112: a UNIFORM that ends OK has a result below `N`, with bit 63 clear, on both
paths. -/
def Obligations.UniformResultIsBelowTheBound : Prop :=
  ∀ (s t : State) (N : Int), 1 ≤ N → N < 2 ^ 63 → s.urr.phase = .fill → s.urr.op = .uniform →
    s.urr.arg = BitVec.ofInt 64 N → s.urr.cnt.toNat = s.urr.need →
    exec (.uniform N) s = .next t → t.urr.phase = .done →
    t.urr.status = .ok ∧ (t.urr.result.toNat : Int) < N ∧ t.urr.result.getLsbD 63 = false

/-! ## Whole commands -/

/-- 40_bit_extractor.md R73: EXTRACT as a function of the replies is what the step machine does. On a
machine in the idle state with EXTRACT `n` presented and every turn `go`, whatever replies the source's
script holds: if the function gives a response, the machine delivers exactly that response, consumes
exactly the requests the function counts, and is idle again; if the replies do not end the command, the
machine has consumed them all and waits for the next.
The premise of an empty schedule makes every enabled step happen, which is the model's choice
(notes/assumptions/1.md, DESIGN CHOICE, unsafe); the
source's list and its counter `served` are too (notes/assumptions/3.md, DESIGN CHOICE). -/
def Obligations.ExtractMatchesItsReplyFunction : Prop :=
  ∀ (s : State) (n : Nat) (later : List CmdWord), n < 2 ^ 64 → s.urr = Urr.zero →
    s.host.commands = encode (.extract n) :: later → s.schedule = [] →
    match extractReplies n (s.src.script.map replyOf) with
    | some (p, used) =>
      ∃ k, core.run k s = .next { s with
        host := { commands := later, responses := s.host.responses ++ [p.word] }
        src := s.src.consumeN used }
    | none =>
      ∃ k t, core.run k s = .next t ∧ t.urr.srcRequest = true ∧
        t.src = s.src.consumeN s.src.script.length ∧ t.host.responses = s.host.responses

/-- 42_range_reducer.md R101: UNIFORM as a function of the replies is what the step machine does, in the
same sense: rejected draws, the accepted one, failures and invalid bounds.
The premise of an empty schedule makes every enabled step happen, which is the model's choice
(notes/assumptions/1.md, DESIGN CHOICE, unsafe); the source's list
and its counter `served` are too (notes/assumptions/3.md, DESIGN CHOICE). -/
def Obligations.UniformMatchesItsReplyFunction : Prop :=
  ∀ (s : State) (N : Int) (later : List CmdWord), -(2 ^ 63) ≤ N → N < 2 ^ 63 → s.urr = Urr.zero →
    s.host.commands = encode (.uniform N) :: later → s.schedule = [] →
    match uniformReplies N (s.src.script.map replyOf) with
    | some (p, used) =>
      ∃ k, core.run k s = .next { s with
        host := { commands := later, responses := s.host.responses ++ [p.word] }
        src := s.src.consumeN used }
    | none =>
      ∃ k t, core.run k s = .next t ∧ t.urr.srcRequest = true ∧
        t.src = s.src.consumeN s.src.script.length ∧ t.host.responses = s.host.responses

/-- 40_bit_extractor.md R73 and 20_memory.md R36, R41 in steps: EXTRACT of `n ≤ 64` bits takes one ACCEPT,
`ceil(n/8)` BYTE, one FINISH and one RESPOND, reads exactly `ceil(n/8)` bytes and delivers their
little-endian value masked to `n` bits.
The premise of an empty schedule makes every enabled step happen, which is the model's choice
(notes/assumptions/1.md, DESIGN CHOICE, unsafe); the source's list
and its counter `served` are too (notes/assumptions/3.md, DESIGN CHOICE). -/
def Obligations.ExtractRunsToItsResponse : Prop :=
  ∀ (s : State) (n : Nat) (later : List CmdWord) (bs : List Byte) (rest : List SrcrWord),
    n ≤ 64 → bs.length = (n + 7) / 8 → s.urr = Urr.zero →
    s.host.commands = encode (.extract n) :: later → s.schedule = [] →
    s.src.script = bs.map byteWord ++ rest →
    core.run (bs.length + 3) s = .next { s with
      host := { commands := later,
                responses := s.host.responses ++ [0#2 ++ (assemble bs &&& mask n)] }
      src := { s.src with script := rest, served := s.src.served + bs.length } }

/-- 42_range_reducer.md R105 and 20_memory.md R41 in steps: UNIFORM of a power of two makes exactly one
draw of `minBytes(N - 1)` bytes and delivers its value modulo `N`.
The premise of an empty schedule makes every enabled step happen, which is the model's choice
(notes/assumptions/1.md, DESIGN CHOICE, unsafe); the source's list
and its counter `served` are too (notes/assumptions/3.md, DESIGN CHOICE). -/
def Obligations.UniformOfAPowerOfTwoDrawsOnce : Prop :=
  ∀ (s : State) (e : Nat) (later : List CmdWord) (bs : List Byte) (rest : List SrcrWord),
    e ≤ 62 → bs.length = minBytes (BitVec.ofNat 64 (2 ^ e - 1)) → s.urr = Urr.zero →
    s.host.commands = encode (.uniform (2 ^ e)) :: later → s.schedule = [] →
    s.src.script = bs.map byteWord ++ rest →
    core.run (bs.length + 3) s = .next { s with
      host := { commands := later,
                responses := s.host.responses ++ [0#2 ++ BitVec.ofNat 64 ((assemble bs).toNat % 2 ^ e)] }
      src := { s.src with script := rest, served := s.src.served + bs.length } }

/-- 42_range_reducer.md R110: the rejection loop has no cap. On the general path a source that only ever
gives the byte `0xFF` has every draw rejected: after ACCEPT and any number `m` of whole draws the block
is where it was after ACCEPT, still filling, with nothing delivered.
The premise of an empty schedule makes every enabled step happen, which is the model's choice
(notes/assumptions/1.md, DESIGN CHOICE, unsafe); the exact number of steps
rests on it. The source's list is the model's choice too (notes/assumptions/3.md, DESIGN CHOICE). -/
def Obligations.RejectionLoopHasNoCap : Prop :=
  ∀ (s : State) (N : Int) (m : Nat) (later : List CmdWord) (rest : List SrcrWord),
    1 ≤ N → N < 2 ^ 63 → isPow2 (BitVec.ofInt 64 N) = false → s.urr = Urr.zero →
    s.host.commands = encode (.uniform N) :: later → s.schedule = [] →
    s.src.script =
      List.replicate (m * minBytes (BitVec.ofInt 64 N - 1#64)) (byteWord 0xFF#8) ++ rest →
    ∃ t, core.run (1 + m * (minBytes (BitVec.ofInt 64 N - 1#64) + 1)) s = .next t ∧
      t.urr = acceptUniform (BitVec.ofInt 64 N) Urr.zero ∧ t.urr.phase = .fill ∧
      t.host.responses = s.host.responses ∧ t.src.script = rest
end

