-- ==== Sys2Proof/Laws/Decode.lean ====
section
/-! SUPPORT. The two fields of a CMD word (30_encoding.md R51) as facts about numbers and bits. -/

namespace Sys2Proof

/-- `op` is the part of the word above bit 63. -/
theorem opField_toNat (w : CmdWord) : (opField w).toNat = w.toNat / 2 ^ 64 := by
  have hw := w.isLt
  unfold opField
  rw [BitVec.extractLsb'_toNat, Nat.shiftRight_eq_div_pow]
  omega

/-- `arg` is the part of the word below bit 64. -/
theorem argField_toNat (w : CmdWord) : (argField w).toNat = w.toNat % 2 ^ 64 := by
  unfold argField
  rw [BitVec.extractLsb'_toNat, Nat.shiftRight_eq_div_pow]
  simp

/-- The number of a word made of two fields. -/
theorem toNat_of_fields (b : BitVec 1) (v : Word) :
    (b ++ v : CmdWord).toNat = b.toNat * 2 ^ 64 + v.toNat := by
  have h := Nat.two_pow_add_eq_or_of_lt v.isLt b.toNat
  have e : (b ++ v : BitVec (1 + 64)).toNat = b.toNat <<< 64 ||| v.toNat := BitVec.toNat_append b v
  have e' : (b ++ v : CmdWord).toNat = b.toNat <<< 64 ||| v.toNat := e
  rw [e', Nat.shiftLeft_eq, Nat.mul_comm b.toNat, ← h]

/-- `op` of a word made of two fields. -/
@[simp] theorem opField_append (b : BitVec 1) (v : Word) : opField (b ++ v) = b := by
  apply BitVec.eq_of_toNat_eq
  have := v.isLt
  rw [opField_toNat, toNat_of_fields]
  omega

/-- `arg` of a word made of two fields. -/
@[simp] theorem argField_append (b : BitVec 1) (v : Word) : argField (b ++ v) = v := by
  apply BitVec.eq_of_toNat_eq
  have := v.isLt
  rw [argField_toNat, toNat_of_fields]
  omega

/-- A word is its two fields. -/
theorem opField_append_argField (w : CmdWord) : opField w ++ argField w = w := by
  apply BitVec.eq_of_toNat_eq
  rw [toNat_of_fields, opField_toNat, argField_toNat]
  omega

/-- `op` is one bit. -/
theorem opField_cases (w : CmdWord) : opField w = 0#1 ∨ opField w = 1#1 := by
  have h : ∀ b : BitVec 1, b = 0#1 ∨ b = 1#1 := by decide
  exact h _

end Sys2Proof
end

