-- ==== Sys2Proof/Laws/Operands.lean ====
section
/-! SUPPORT. The arithmetic of the operands: bytes of a word, `mask`, `assemble`, `bitlength` and
`minBytes` as facts about natural numbers (40_bit_extractor.md, 41_min_bytes.md). -/

namespace Sys2Proof.Machine

/-- `mask n` as a number (40_bit_extractor.md R72). -/
theorem mask_toNat_of_le (n : Nat) (h : n ≤ 64) : (mask n).toNat = 2 ^ n - 1 := by
  have h1 : 2 ^ n ≤ 2 ^ 64 := Nat.pow_le_pow_right (by decide) h
  have h2 : 0 < 2 ^ n := Nat.two_pow_pos n
  unfold mask
  rw [BitVec.toNat_ofNat, Nat.mod_eq_of_lt (by omega)]

/-- Masking with `mask n` is the remainder modulo `2^n`. -/
theorem and_mask_toNat (v : Word) (n : Nat) (h : n ≤ 64) : (v &&& mask n).toNat = v.toNat % 2 ^ n := by
  rw [BitVec.toNat_and, mask_toNat_of_le n h, Nat.and_two_pow_sub_one_eq_mod]

/-- One bit of one byte of a word. -/
theorem getByte_getLsbD (v : Word) (i j : Nat) :
    (getByte v i).getLsbD j = (decide (j < 8) && v.getLsbD (8 * i + j)) := by
  unfold getByte
  rw [BitVec.getLsbD_extractLsb']

/-- One bit of a word with a byte replaced. -/
theorem setByte_getLsbD (v : Word) (i : Nat) (b : Byte) (k : Nat) :
    (setByte v i b).getLsbD k =
      (decide (k < 64) && if 8 * i ≤ k ∧ k < 8 * i + 8 then b.getLsbD (k - 8 * i) else v.getLsbD k) := by
  have h255 : ∀ m, (255#64).getLsbD m = decide (m < 8) := by
    intro m
    by_cases hm : m < 8
    · interval_cases m <;> decide
    · have : (255 : Nat).testBit m = false :=
        Nat.testBit_lt_two_pow (lt_of_lt_of_le (by decide : 255 < 2 ^ 8) (Nat.pow_le_pow_right (by decide) (by omega)))
      simp [BitVec.getLsbD_ofNat, this, hm]
  unfold setByte
  by_cases hk : k < 64
  · simp only [BitVec.getLsbD_or, BitVec.getLsbD_and, BitVec.getLsbD_not, BitVec.getLsbD_shiftLeft,
      BitVec.getLsbD_setWidth, h255, hk, decide_true, Bool.true_and]
    by_cases h1 : k < 8 * i
    · simp [h1, show ¬ 8 * i ≤ k by omega]
    · by_cases h2 : k < 8 * i + 8
      · have e1 : k - 8 * i < 8 := by omega
        have e2 : k - 8 * i < 64 := by omega
        simp [h1, h2, e1, e2, show 8 * i ≤ k by omega]
      · have e1 : ¬ k - 8 * i < 8 := by omega
        have e2 : b.getLsbD (k - 8 * i) = false := BitVec.getLsbD_of_ge _ _ (by omega)
        simp [h1, h2, e1, e2]
  · simp [hk, BitVec.getLsbD_of_ge _ _ (show 64 ≤ k by omega)]

/-- The byte written is read back (40_bit_extractor.md R75). -/
theorem getByte_setByte_same (v : Word) (i : Nat) (b : Byte) (hi : i < 8) :
    getByte (setByte v i b) i = b := by
  apply BitVec.eq_of_getLsbD_eq
  intro j hj
  rw [getByte_getLsbD, setByte_getLsbD]
  have e1 : 8 * i + j < 64 := by omega
  have e2 : 8 * i ≤ 8 * i + j ∧ 8 * i + j < 8 * i + 8 := by omega
  simp [hj, e1]

/-- Writing one byte leaves the others as they were (40_bit_extractor.md R75). -/
theorem getByte_setByte_other (v : Word) (i k : Nat) (b : Byte) (h : i ≠ k) :
    getByte (setByte v i b) k = getByte v k := by
  apply BitVec.eq_of_getLsbD_eq
  intro j hj
  rw [getByte_getLsbD, getByte_getLsbD, setByte_getLsbD]
  have e2 : ¬ (8 * i ≤ 8 * k + j ∧ 8 * k + j < 8 * i + 8) := by omega
  rw [if_neg e2]
  by_cases hk : 8 * k + j < 64
  · simp [hj, hk]
  · simp [hj, hk, BitVec.getLsbD_of_ge _ _ (show 64 ≤ 8 * k + j by omega)]

/-- Two words with the same eight bytes are equal. -/
theorem eq_of_getByte_eq (v w : Word) (h : ∀ i, i < 8 → getByte v i = getByte w i) : v = w := by
  apply BitVec.eq_of_getLsbD_eq
  intro k hk
  have h1 := congrArg (fun b : Byte => b.getLsbD (k % 8)) (h (k / 8) (by omega))
  have h2 : k % 8 < 8 := Nat.mod_lt _ (by decide)
  simp only [getByte_getLsbD, h2, decide_true, Bool.true_and] at h1
  have h3 : 8 * (k / 8) + k % 8 = k := by omega
  rwa [h3] at h1

/-- The bytes of zero are zero. -/
@[simp] theorem getByte_zero (i : Nat) : getByte 0#64 i = 0#8 := by
  apply BitVec.eq_of_getLsbD_eq
  intro j hj
  rw [getByte_getLsbD]
  simp

/-- `assemble` of `k` bytes is below `2^(8k)` (40_bit_extractor.md R71). -/
theorem assembleNat_lt (bs : List Byte) : assembleNat bs < 2 ^ (8 * bs.length) := by
  induction bs with
  | nil => simp [assembleNat]
  | cons b bs ih =>
    have hb : b.toNat < 2 ^ 8 := b.isLt
    have e : 2 ^ (8 * (b :: bs).length) = 2 ^ 8 * 2 ^ (8 * bs.length) := by
      rw [← Nat.pow_add]
      congr 1
      simp only [List.length_cons]
      omega
    have h1 : assembleNat bs + 1 ≤ 2 ^ (8 * bs.length) := ih
    have h2 := Nat.mul_le_mul_left (2 ^ 8) h1
    rw [e]
    simp only [assembleNat]
    omega

/-- One more byte goes above those before it. -/
theorem assembleNat_append (bs : List Byte) (b : Byte) :
    assembleNat (bs ++ [b]) = assembleNat bs + 2 ^ (8 * bs.length) * b.toNat := by
  induction bs with
  | nil => simp [assembleNat]
  | cons c cs ih =>
    have e : 2 ^ (8 * (c :: cs).length) = 2 ^ 8 * 2 ^ (8 * cs.length) := by
      rw [← Nat.pow_add]
      congr 1
      simp only [List.length_cons]
      omega
    rw [List.cons_append, assembleNat, ih, assembleNat, e]
    ring

/-- `bitlength v ≤ k` says that `v` fits `k` bits (00_scope.md R7). -/
theorem bitlength_le_iff (v k : Nat) : bitlength v ≤ k ↔ v < 2 ^ k := by
  unfold bitlength
  split
  · rename_i h
    subst h
    simp
  · rename_i h
    rw [Nat.add_one_le_iff, Nat.log2_lt h]

/-- `minBytes v ≤ k` says that `v` fits `k` bytes (41_min_bytes.md R90). -/
theorem minBytes_le_iff (v : Word) (k : Nat) : minBytes v ≤ k ↔ v.toNat < 2 ^ (8 * k) := by
  rw [← bitlength_le_iff]
  unfold minBytes
  omega

/-- `minBytes` is at most 8. -/
theorem minBytes_le_eight (v : Word) : minBytes v ≤ 8 := by
  rw [minBytes_le_iff]
  exact v.isLt

/-- `bitsFor` is at most 64. -/
theorem bitsFor_le (a : Word) : bitsFor a ≤ 64 := by
  have := minBytes_le_eight (a - 1#64)
  unfold bitsFor
  omega

/-- A valid UNIFORM operand is a number from 1 to `2^63 - 1` (42_range_reducer.md R102). -/
theorem uniformValid_iff (a : Word) : uniformValid a = true ↔ 1 ≤ a.toNat ∧ a.toNat < 2 ^ 63 := by
  have h := a.isLt
  unfold uniformValid
  rw [decide_eq_true_iff, BitVec.toInt_eq_toNat_cond]
  split <;> omega

/-- `N - 1` does not borrow for `N ≥ 1` (42_range_reducer.md R113). -/
theorem toNat_sub_one (a : Word) (h : 1 ≤ a.toNat) : (a - 1#64).toNat = a.toNat - 1 := by
  have := a.isLt
  rw [BitVec.toNat_sub]
  simp
  omega

/-- `N ≤ M` (42_range_reducer.md R108). -/
theorem le_Mof (a : Word) (h : 1 ≤ a.toNat) : a.toNat ≤ Mof a := by
  have h1 := (minBytes_le_iff (a - 1#64) _).mp (Nat.le_refl _)
  rw [toNat_sub_one a h] at h1
  unfold Mof bitsFor
  omega

/-- `M` is positive. -/
theorem Mof_pos (a : Word) : 0 < Mof a := Nat.two_pow_pos _

/-- `M ≤ 2^64`. -/
theorem Mof_le (a : Word) : Mof a ≤ 2 ^ 64 := Nat.pow_le_pow_right (by decide) (bitsFor_le a)

end Sys2Proof.Machine
end

