-- ==== Sys2Proof/Laws/State.lean ====
section
/-! SUPPORT. The small lemmas of State: what each update of the registers, of the source and of the
environment does to each field. All true by rfl; no later proof needs to unfold a record update. -/

namespace Sys2Proof.Machine

/-! The registers. -/

@[simp] theorem Urr.zero_phase : Urr.zero.phase = .idle := rfl
@[simp] theorem Urr.zero_op : Urr.zero.op = .extract := rfl
@[simp] theorem Urr.zero_arg : Urr.zero.arg = 0#64 := rfl
@[simp] theorem Urr.zero_bits : Urr.zero.bits = 0#7 := rfl
@[simp] theorem Urr.zero_limit : Urr.zero.limit = 0#64 := rfl
@[simp] theorem Urr.zero_buf : Urr.zero.buf = 0#64 := rfl
@[simp] theorem Urr.zero_cnt : Urr.zero.cnt = 0#4 := rfl
@[simp] theorem Urr.zero_status : Urr.zero.status = .ok := rfl
@[simp] theorem Urr.zero_result : Urr.zero.result = 0#64 := rfl

@[simp] theorem Urr.raise_phase (code : Status) (u : Urr) : (u.raise code).phase = .done := rfl
@[simp] theorem Urr.raise_op (code : Status) (u : Urr) : (u.raise code).op = u.op := rfl
@[simp] theorem Urr.raise_arg (code : Status) (u : Urr) : (u.raise code).arg = u.arg := rfl
@[simp] theorem Urr.raise_bits (code : Status) (u : Urr) : (u.raise code).bits = u.bits := rfl
@[simp] theorem Urr.raise_limit (code : Status) (u : Urr) : (u.raise code).limit = u.limit := rfl
@[simp] theorem Urr.raise_buf (code : Status) (u : Urr) : (u.raise code).buf = 0#64 := rfl
@[simp] theorem Urr.raise_cnt (code : Status) (u : Urr) : (u.raise code).cnt = 0#4 := rfl
@[simp] theorem Urr.raise_status (code : Status) (u : Urr) : (u.raise code).status = code := rfl
@[simp] theorem Urr.raise_result (code : Status) (u : Urr) : (u.raise code).result = 0#64 := rfl

@[simp] theorem Urr.complete_phase (v : Word) (u : Urr) : (u.complete v).phase = .done := rfl
@[simp] theorem Urr.complete_op (v : Word) (u : Urr) : (u.complete v).op = u.op := rfl
@[simp] theorem Urr.complete_arg (v : Word) (u : Urr) : (u.complete v).arg = u.arg := rfl
@[simp] theorem Urr.complete_bits (v : Word) (u : Urr) : (u.complete v).bits = u.bits := rfl
@[simp] theorem Urr.complete_limit (v : Word) (u : Urr) : (u.complete v).limit = u.limit := rfl
@[simp] theorem Urr.complete_buf (v : Word) (u : Urr) : (u.complete v).buf = 0#64 := rfl
@[simp] theorem Urr.complete_cnt (v : Word) (u : Urr) : (u.complete v).cnt = 0#4 := rfl
@[simp] theorem Urr.complete_status (v : Word) (u : Urr) : (u.complete v).status = .ok := rfl
@[simp] theorem Urr.complete_result (v : Word) (u : Urr) : (u.complete v).result = v := rfl

@[simp] theorem Urr.redraw_phase (u : Urr) : (u.redraw).phase = u.phase := rfl
@[simp] theorem Urr.redraw_op (u : Urr) : (u.redraw).op = u.op := rfl
@[simp] theorem Urr.redraw_arg (u : Urr) : (u.redraw).arg = u.arg := rfl
@[simp] theorem Urr.redraw_bits (u : Urr) : (u.redraw).bits = u.bits := rfl
@[simp] theorem Urr.redraw_limit (u : Urr) : (u.redraw).limit = u.limit := rfl
@[simp] theorem Urr.redraw_buf (u : Urr) : (u.redraw).buf = 0#64 := rfl
@[simp] theorem Urr.redraw_cnt (u : Urr) : (u.redraw).cnt = 0#4 := rfl
@[simp] theorem Urr.redraw_status (u : Urr) : (u.redraw).status = u.status := rfl
@[simp] theorem Urr.redraw_result (u : Urr) : (u.redraw).result = u.result := rfl

@[simp] theorem Urr.storeByte_phase (b : Byte) (u : Urr) : (u.storeByte b).phase = u.phase := rfl
@[simp] theorem Urr.storeByte_op (b : Byte) (u : Urr) : (u.storeByte b).op = u.op := rfl
@[simp] theorem Urr.storeByte_arg (b : Byte) (u : Urr) : (u.storeByte b).arg = u.arg := rfl
@[simp] theorem Urr.storeByte_bits (b : Byte) (u : Urr) : (u.storeByte b).bits = u.bits := rfl
@[simp] theorem Urr.storeByte_limit (b : Byte) (u : Urr) : (u.storeByte b).limit = u.limit := rfl
@[simp] theorem Urr.storeByte_buf (b : Byte) (u : Urr) : (u.storeByte b).buf = setByte u.buf u.cnt.toNat b := rfl
@[simp] theorem Urr.storeByte_cnt (b : Byte) (u : Urr) : (u.storeByte b).cnt = u.cnt + 1#4 := rfl
@[simp] theorem Urr.storeByte_status (b : Byte) (u : Urr) : (u.storeByte b).status = u.status := rfl
@[simp] theorem Urr.storeByte_result (b : Byte) (u : Urr) : (u.storeByte b).result = u.result := rfl

@[simp] theorem Urr.startFill_phase (n l : Nat) (u : Urr) : (u.startFill n l).phase = .fill := rfl
@[simp] theorem Urr.startFill_op (n l : Nat) (u : Urr) : (u.startFill n l).op = u.op := rfl
@[simp] theorem Urr.startFill_arg (n l : Nat) (u : Urr) : (u.startFill n l).arg = u.arg := rfl
@[simp] theorem Urr.startFill_bits (n l : Nat) (u : Urr) : (u.startFill n l).bits = BitVec.ofNat 7 n := rfl
@[simp] theorem Urr.startFill_limit (n l : Nat) (u : Urr) : (u.startFill n l).limit = BitVec.ofNat 64 l := rfl
@[simp] theorem Urr.startFill_buf (n l : Nat) (u : Urr) : (u.startFill n l).buf = 0#64 := rfl
@[simp] theorem Urr.startFill_cnt (n l : Nat) (u : Urr) : (u.startFill n l).cnt = 0#4 := rfl
@[simp] theorem Urr.startFill_status (n l : Nat) (u : Urr) : (u.startFill n l).status = .ok := rfl
@[simp] theorem Urr.startFill_result (n l : Nat) (u : Urr) : (u.startFill n l).result = 0#64 := rfl

@[simp] theorem Urr.latch_phase (o : Op) (a : Word) (u : Urr) : (u.latch o a).phase = u.phase := rfl
@[simp] theorem Urr.latch_op (o : Op) (a : Word) (u : Urr) : (u.latch o a).op = o := rfl
@[simp] theorem Urr.latch_arg (o : Op) (a : Word) (u : Urr) : (u.latch o a).arg = a := rfl
@[simp] theorem Urr.latch_bits (o : Op) (a : Word) (u : Urr) : (u.latch o a).bits = u.bits := rfl
@[simp] theorem Urr.latch_limit (o : Op) (a : Word) (u : Urr) : (u.latch o a).limit = u.limit := rfl
@[simp] theorem Urr.latch_buf (o : Op) (a : Word) (u : Urr) : (u.latch o a).buf = u.buf := rfl
@[simp] theorem Urr.latch_cnt (o : Op) (a : Word) (u : Urr) : (u.latch o a).cnt = u.cnt := rfl
@[simp] theorem Urr.latch_status (o : Op) (a : Word) (u : Urr) : (u.latch o a).status = u.status := rfl
@[simp] theorem Urr.latch_result (o : Op) (a : Word) (u : Urr) : (u.latch o a).result = u.result := rfl

/-! NEED reads BITS only, so the updates that keep BITS keep it. -/

@[simp] theorem Urr.redraw_need (u : Urr) : u.redraw.need = u.need := rfl
@[simp] theorem Urr.storeByte_need (b : Byte) (u : Urr) : (u.storeByte b).need = u.need := rfl
@[simp] theorem Urr.raise_need (code : Status) (u : Urr) : (u.raise code).need = u.need := rfl
@[simp] theorem Urr.complete_need (v : Word) (u : Urr) : (u.complete v).need = u.need := rfl

/-! The source. -/

@[simp] theorem Source.consume_script (o : Source) : o.consume.script = o.script.tail := rfl
@[simp] theorem Source.consume_kind (o : Source) : o.consume.kind = o.kind := rfl
@[simp] theorem Source.consume_served (o : Source) : o.consume.served = o.served + 1 := rfl
@[simp] theorem Source.consumeN_script (k : Nat) (o : Source) : (o.consumeN k).script = o.script.drop k := rfl
@[simp] theorem Source.consumeN_kind (k : Nat) (o : Source) : (o.consumeN k).kind = o.kind := rfl
@[simp] theorem Source.consumeN_served (k : Nat) (o : Source) : (o.consumeN k).served = o.served + k := rfl

/-- Consuming one reply and then `k` is consuming `k + 1`. -/
theorem Source.consumeN_consume (k : Nat) (o : Source) : o.consume.consumeN k = o.consumeN (k + 1) := by
  simp [Source.consume, Source.consumeN, List.drop_tail, Nat.add_assoc, Nat.add_comm 1 k]

@[simp] theorem Source.consumeN_zero (o : Source) : o.consumeN 0 = o := by
  simp [Source.consumeN]

/-- Consuming `j` replies and then `k` is consuming `j + k`. -/
theorem Source.consumeN_consumeN (j k : Nat) (o : Source) :
    (o.consumeN j).consumeN k = o.consumeN (j + k) := by
  simp [Source.consumeN, List.drop_drop, Nat.add_assoc]

/-- A script that has a next word answers with it. -/
@[simp] theorem Source.answer_cons (o : Source) (w : SrcrWord) (ws : List SrcrWord)
    (h : o.script = w :: ws) : o.answer = some w := by
  simp [Source.answer, h]

/-- A fixed source answers `Fail` once its list is used up (20_memory.md R32). -/
theorem Source.answer_fixed_nil (o : Source) (h : o.script = []) (hk : o.kind = .fixed) :
    o.answer = some failWord := by
  simp [Source.answer, h, hk]

/-! The environment's part of a step. -/

@[simp] theorem State.endTurn_urr (s : State) : s.endTurn.urr = s.urr := rfl
@[simp] theorem State.endTurn_host (s : State) : s.endTurn.host = s.host := rfl
@[simp] theorem State.endTurn_src (s : State) : s.endTurn.src = s.src := rfl
@[simp] theorem State.endTurn_schedule (s : State) : s.endTurn.schedule = s.schedule.tail := rfl

@[simp] theorem respondStep_urr (s : State) : (respondStep s).urr = Urr.zero := rfl
@[simp] theorem respondStep_commands (s : State) : (respondStep s).host.commands = s.host.commands := rfl
@[simp] theorem respondStep_responses (s : State) :
    (respondStep s).host.responses = s.host.responses ++ [s.urr.rsp] := rfl
@[simp] theorem respondStep_src (s : State) : (respondStep s).src = s.src := rfl
@[simp] theorem respondStep_schedule (s : State) : (respondStep s).schedule = s.schedule := rfl

@[simp] theorem resetStep_urr (c : Bool) (s : State) : (resetStep c s).urr = Urr.zero := rfl
@[simp] theorem resetStep_host (c : Bool) (s : State) : (resetStep c s).host = s.host := rfl
@[simp] theorem resetStep_schedule (c : Bool) (s : State) : (resetStep c s).schedule = s.schedule := rfl

end Sys2Proof.Machine
end

