-- ==== Sys2Proof/Laws/Ops.lean ====
section
/-! SUPPORT. One lemma per shared operation that says everything it can do, for proofs to cite instead
of unfolding it. -/

namespace Sys2Proof.Machine

/-- A request is outstanding exactly in FILL with CNT below NEED (20_memory.md R31). -/
theorem Urr.srcRequest_iff (u : Urr) : u.srcRequest = true ↔ u.phase = .fill ∧ u.cnt.toNat < u.need := by
  simp [Urr.srcRequest]

/-- The meaning of EXTRACT as its shared operation. -/
theorem exec_extract (n : Nat) (s : State) :
    exec (.extract n) s =
      .next (commandStep .extract (extractArg n) (acceptExtract (extractArg n)) finishExtract s) := rfl

/-- The meaning of UNIFORM as its shared operation. -/
theorem exec_uniform (N : Int) (s : State) :
    exec (.uniform N) s =
      .next (commandStep .uniform (uniformArg N) (acceptUniform (uniformArg N)) finishUniform s) := rfl

/-- `extractArg` gives back the operand a word of EXTRACT holds. -/
@[simp] theorem extractArg_toNat (a : Word) : extractArg a.toNat = a := by
  simp [extractArg]

/-- `uniformArg` gives back the operand a word of UNIFORM holds. -/
@[simp] theorem uniformArg_toInt (a : Word) : uniformArg a.toInt = a := by
  simp [uniformArg]

/-- What the step after ACCEPT of the command in flight uses: FINISH of that command. -/
def finishOf : Op → Urr → Urr
  | .extract => finishExtract
  | .uniform => finishUniform

/-- ACCEPT of the command with this code and operand. -/
def acceptOf : Op → Word → Urr → Urr
  | .extract => acceptExtract
  | .uniform => acceptUniform

/-- BYTE does one of three things: waits, raises SOURCE_ERROR, or stores a byte. -/
theorem byteStep_cases (s : State) :
    (s.src.answer = none ∧ byteStep s = s) ∨
      (∃ w, s.src.answer = some w ∧ replyOf w = .fail ∧
        byteStep s = { s with urr := s.urr.raise .sourceError, src := s.src.consume }) ∨
      (∃ w b, s.src.answer = some w ∧ replyOf w = .byte b ∧
        byteStep s = { s with urr := s.urr.storeByte b, src := s.src.consume }) := by
  cases hw : s.src.answer with
  | none => exact .inl ⟨rfl, by simp [byteStep, hw]⟩
  | some w =>
    cases hr : replyOf w with
    | fail => exact .inr (.inl ⟨w, rfl, hr, by simp [byteStep, hw, hr]⟩)
    | byte b => exact .inr (.inr ⟨w, b, rfl, hr, by simp [byteStep, hw, hr]⟩)

/-- BYTE while bytes are missing. -/
theorem fillStep_byte (f : Urr → Urr) (s : State) (h : s.urr.cnt.toNat < s.urr.need) :
    fillStep f s = byteStep s := by
  simp [fillStep, h]

/-- FINISH when all bytes are there. -/
theorem fillStep_finish (f : Urr → Urr) (s : State) (h : s.urr.cnt.toNat = s.urr.need) :
    fillStep f s = { s with urr := f s.urr } := by
  simp [fillStep, h]

/-- An idle block accepts (10_state.md R20). -/
theorem commandStep_idle (o : Op) (a : Word) (acc fin : Urr → Urr) (s : State)
    (h : s.urr.phase = .idle) : commandStep o a acc fin s = { s with urr := acc s.urr } := by
  simp [commandStep, h]

/-- A filling block carries on with the command in flight (10_state.md R20). -/
theorem commandStep_fill (acc fin : Urr → Urr) (s : State) (h : s.urr.phase = .fill) :
    commandStep s.urr.op s.urr.arg acc fin s = fillStep fin s := by
  simp [commandStep, h]

/-- A done block delivers the response of the command in flight (10_state.md R22). -/
theorem commandStep_done (acc fin : Urr → Urr) (s : State) (h : s.urr.phase = .done) :
    commandStep s.urr.op s.urr.arg acc fin s = respondStep s := by
  simp [commandStep, h]

/-- A busy block does not serve another command (10_state.md R20). -/
theorem commandStep_other (o : Op) (a : Word) (acc fin : Urr → Urr) (s : State)
    (h : s.urr.phase ≠ .idle) (hne : ¬ (s.urr.op = o ∧ s.urr.arg = a)) :
    commandStep o a acc fin s = s := by
  cases hp : s.urr.phase with
  | idle => exact absurd hp h
  | fill => simp [commandStep, hp, hne]
  | done => simp [commandStep, hp, hne]

/-- The command in flight, whichever it is, as its shared operation. -/
theorem exec_inFlight (s : State) :
    exec s.urr.inFlight s =
      .next (commandStep s.urr.op s.urr.arg (acceptOf s.urr.op s.urr.arg) (finishOf s.urr.op) s) := by
  cases h : s.urr.op <;> simp [Urr.inFlight, h, exec_extract, exec_uniform, acceptOf, finishOf]

/-- The command in flight in FILL: its fill goes on. -/
theorem exec_inFlight_fill (s : State) (h : s.urr.phase = .fill) :
    exec s.urr.inFlight s = .next (fillStep (finishOf s.urr.op) s) := by
  rw [exec_inFlight, commandStep_fill _ _ _ h]

/-- The command in flight in DONE: its response is taken. -/
theorem exec_inFlight_done (s : State) (h : s.urr.phase = .done) :
    exec s.urr.inFlight s = .next (respondStep s) := by
  rw [exec_inFlight, commandStep_done _ _ _ h]

/-- The command a CMD word stands for, presented to an idle block, is accepted with the word's own
`arg` bits. -/
theorem exec_decodeWord_idle (w : CmdWord) (s : State) (h : s.urr.phase = .idle) :
    exec (decodeWord w) s =
      .next { s with
        urr := if opField w = 0#1 then acceptExtract (argField w) s.urr
          else acceptUniform (argField w) s.urr } := by
  unfold decodeWord
  split
  · rw [exec_extract, extractArg_toNat, commandStep_idle _ _ _ _ _ h]
  · rw [exec_uniform, uniformArg_toInt, commandStep_idle _ _ _ _ _ h]

/-- FINISH of UNIFORM does one of two things: completes with some value, or draws again
(42_range_reducer.md R105, R106, R107). -/
theorem finishUniform_cases (u : Urr) :
    (isPow2 u.arg = true ∧ finishUniform u = u.complete (u.r &&& (u.arg - 1#64))) ∨
      (isPow2 u.arg = false ∧ u.r.toNat < u.limit.toNat ∧ finishUniform u = u.complete (u.r % u.arg)) ∨
      (isPow2 u.arg = false ∧ u.limit.toNat ≤ u.r.toNat ∧ finishUniform u = u.redraw) := by
  unfold finishUniform
  cases hp : isPow2 u.arg with
  | true => exact .inl ⟨rfl, by simp⟩
  | false =>
    by_cases hr : u.r.toNat < u.limit.toNat
    · exact .inr (.inl ⟨rfl, hr, by simp [hr]⟩)
    · exact .inr (.inr ⟨rfl, by omega, by simp [hr]⟩)

end Sys2Proof.Machine
end

