-- ==== Sys2Proof/Laws/PerInstr.lean ====
section
/-! SUPPORT. Facts about every command as syntax, one lemma per constructor. -/

namespace Sys2Proof.Laws

/-- The fields of a command's CMD word are what 30_encoding.md R52, R53 and R54 say: bit 64 is the
opcode, bits 63:0 the operand's 64-bit word, nothing is dropped. -/
def CmdFields.Statement : Instr → Prop
  | .extract n => (encode (.extract n)).toNat = n % 2 ^ 64
  | .uniform N => (encode (.uniform N)).toNat = 2 ^ 64 + (BitVec.ofInt 64 N).toNat

theorem CmdFields.extract (n : Nat) : CmdFields.Statement (.extract n) := by
  show (0#1 ++ BitVec.ofNat 64 n : BitVec (1 + 64)).toNat = n % 2 ^ 64
  rw [BitVec.toNat_append]
  simp

theorem CmdFields.uniform (N : Int) : CmdFields.Statement (.uniform N) := by
  show (1#1 ++ BitVec.ofInt 64 N : BitVec (1 + 64)).toNat = 2 ^ 64 + (BitVec.ofInt 64 N).toNat
  have h : (BitVec.ofInt 64 N).toNat < 2 ^ 64 := (BitVec.ofInt 64 N).isLt
  rw [BitVec.toNat_append, Nat.shiftLeft_eq]
  have := Nat.two_pow_add_eq_or_of_lt h 1
  simp at this ⊢
  omega

end Sys2Proof.Laws
end

