-- ==== Sys2Proof/Laws/Step.lean ====
section
/-! SUPPORT. What one step can do, said once: one equation per turn and phase, and the inversion lemma
that every invariant of the machine is proved from. -/

namespace Sys2Proof.Machine

/-- A reset turn (70_reset_and_hazards.md R170). -/
theorem step_reset (s : State) (c : Bool) (h : s.turn = .reset c) :
    step s = .next (resetStep c s.endTurn) := by
  simp [step, h]

/-- A turn in which nothing happens (10_state.md R21). -/
theorem step_wait (s : State) (h : s.turn = .wait) : step s = .next s.endTurn := by
  simp [step, h]

/-- An idle block with no command presented waits (60_exceptions.md R160). -/
theorem step_idle_none (s : State) (h : s.turn = .go) (hp : s.urr.phase = .idle)
    (hc : s.host.commands = []) : step s = .next s.endTurn := by
  simp [step, h, State.fetch, hp, hc]

/-- An idle block runs the command presented. -/
theorem step_idle_cons (s : State) (w : CmdWord) (ws : List CmdWord) (h : s.turn = .go)
    (hp : s.urr.phase = .idle) (hc : s.host.commands = w :: ws) :
    step s = exec (decodeWord w)
      { s with host := { s.host with commands := ws }, schedule := s.schedule.tail } := by
  simp [step, h, State.fetch, hp, hc, State.endTurn]

/-- A filling block carries on (10_state.md R20). -/
theorem step_fill (s : State) (h : s.turn = .go) (hp : s.urr.phase = .fill) :
    step s = .next (fillStep (finishOf s.urr.op) s.endTurn) := by
  have := exec_inFlight_fill s.endTurn hp
  simpa [step, h, State.fetch, hp] using this

/-- A done block delivers its response (10_state.md R22). -/
theorem step_done (s : State) (h : s.turn = .go) (hp : s.urr.phase = .done) :
    step s = .next (respondStep s.endTurn) := by
  have := exec_inFlight_done s.endTurn hp
  simpa [step, h, State.fetch, hp] using this

/-- Everything a step can do (10_state.md R20): reset, nothing, ACCEPT, BYTE in its two outcomes, FINISH,
RESPOND. -/
theorem step_cases (s t : State) (h : step s = .next t) :
    (∃ c, s.turn = .reset c ∧ t = resetStep c s.endTurn) ∨
      ((∀ c, s.turn ≠ .reset c) ∧ t = s.endTurn) ∨
      (s.turn = .go ∧ s.urr.phase = .idle ∧ ∃ w ws, s.host.commands = w :: ws ∧
        t = { s with
          urr := if opField w = 0#1 then acceptExtract (argField w) s.urr
            else acceptUniform (argField w) s.urr
          host := { s.host with commands := ws }
          schedule := s.schedule.tail }) ∨
      (s.turn = .go ∧ s.urr.phase = .fill ∧ s.urr.cnt.toNat < s.urr.need ∧
        ∃ w, s.src.answer = some w ∧ replyOf w = .fail ∧
          t = { s.endTurn with urr := s.urr.raise .sourceError, src := s.src.consume }) ∨
      (s.turn = .go ∧ s.urr.phase = .fill ∧ s.urr.cnt.toNat < s.urr.need ∧
        ∃ w b, s.src.answer = some w ∧ replyOf w = .byte b ∧
          t = { s.endTurn with urr := s.urr.storeByte b, src := s.src.consume }) ∨
      (s.turn = .go ∧ s.urr.phase = .fill ∧ s.urr.cnt.toNat = s.urr.need ∧
        t = { s.endTurn with urr := finishOf s.urr.op s.urr }) ∨
      (s.turn = .go ∧ s.urr.phase = .done ∧ t = respondStep s.endTurn) := by
  cases ht : s.turn with
  | reset c =>
    rw [step_reset s c ht] at h
    exact .inl ⟨c, rfl, by injection h with h; exact h.symm⟩
  | wait =>
    rw [step_wait s ht] at h
    exact .inr (.inl ⟨by simp, by injection h with h; exact h.symm⟩)
  | go =>
    refine .inr ?_
    cases hp : s.urr.phase with
    | idle =>
      cases hc : s.host.commands with
      | nil =>
        rw [step_idle_none s ht hp hc] at h
        exact .inl ⟨by simp, by injection h with h; exact h.symm⟩
      | cons w ws =>
        have e := exec_decodeWord_idle w
          { s with host := { s.host with commands := ws }, schedule := s.schedule.tail } hp
        rw [step_idle_cons s w ws ht hp hc, e] at h
        injection h with h
        exact .inr (.inl ⟨rfl, rfl, w, ws, rfl, h.symm⟩)
    | fill =>
      rw [step_fill s ht hp] at h
      injection h with h
      by_cases h1 : s.urr.cnt.toNat < s.urr.need
      · rw [fillStep_byte _ s.endTurn h1] at h
        rcases byteStep_cases s.endTurn with ⟨-, e⟩ | ⟨w, hw, hr, e⟩ | ⟨w, b, hw, hr, e⟩
        · exact .inl ⟨by simp, by rw [← h, e]⟩
        · exact .inr (.inr (.inl ⟨rfl, rfl, h1, w, hw, hr, by rw [← h, e]; rfl⟩))
        · exact .inr (.inr (.inr (.inl ⟨rfl, rfl, h1, w, b, hw, hr, by rw [← h, e]; rfl⟩)))
      · by_cases h2 : s.urr.cnt.toNat = s.urr.need
        · rw [fillStep_finish _ s.endTurn h2] at h
          exact .inr (.inr (.inr (.inr (.inl ⟨rfl, rfl, h2, h.symm⟩))))
        · have e : fillStep (finishOf s.urr.op) s.endTurn = s.endTurn := by
            simp [fillStep, h1, h2]
          exact .inl ⟨by simp, by rw [← h, e]⟩
    | done =>
      rw [step_done s ht hp] at h
      injection h with h
      exact .inr (.inr (.inr (.inr (.inr ⟨rfl, rfl, h.symm⟩))))

/-- A run of `k + 1` steps of any machine. -/
theorem coreRun_succ_eq (M : Host.Core) (s : M.State) (k : Nat) :
    M.run (k + 1) s =
      match M.step s with
      | .next s' => M.run k s'
      | .fault r => .fault r
      | .refused r => .refused r := rfl

/-- A run of no steps. -/
@[simp] theorem run_zero (s : State) : core.run 0 s = .next s := rfl

/-- A run of `k + 1` steps whose first step answers `t`. -/
theorem run_succ (s t : State) (k : Nat) (h : step s = .next t) :
    core.run (k + 1) s = core.run k t := by
  have e := coreRun_succ_eq core s k
  rw [show core.step s = .next t from h] at e
  exact e

/-- A command's next step always answers a next state. -/
theorem exec_next (i : Instr) (s : State) : ∃ t, exec i s = .next t := by
  cases i with
  | extract n => exact ⟨_, exec_extract n s⟩
  | uniform N => exact ⟨_, exec_uniform N s⟩

/-- The first step of a run that answers a state. -/
theorem run_succ_inv (s t : State) (k : Nat) (h : core.run (k + 1) s = .next t) :
    ∃ s', step s = .next s' ∧ core.run k s' = .next t := by
  have e := coreRun_succ_eq core s k
  rw [h] at e
  cases hs : step s with
  | next s' =>
    rw [show core.step s = .next s' from hs] at e
    exact ⟨s', rfl, e.symm⟩
  | fault r => cases r
  | refused r =>
    rw [show core.step s = .refused r from hs] at e
    cases e

/-- Runs compose. -/
theorem run_add (s t : State) (j k : Nat) (h : core.run j s = .next t) :
    core.run (j + k) s = core.run k t := by
  induction j generalizing s with
  | zero =>
    rw [run_zero] at h
    injection h with h
    rw [h, Nat.zero_add]
  | succ j ih =>
    obtain ⟨s', hs, hr⟩ := run_succ_inv s t j h
    rw [show j + 1 + k = (j + k) + 1 by omega, run_succ s s' _ hs, ih s' hr]

end Sys2Proof.Machine
end

