-- ==== Sys2Proof/Machine/Text.lean ====
section
/-! DEFINITION. The textual forms of commands, words, responses and source scripts (30_encoding.md R60,
R61), so that the spec's vectors can be written as the spec writes them. Reading only; nothing of the
step machine uses it. -/

namespace Sys2Proof.Machine

/-- The value of one digit in a base up to 16. -/
def digitValue (base : Nat) (c : Char) : Option Nat :=
  let v :=
    if '0' ≤ c ∧ c ≤ '9' then c.toNat - 48
    else if 'A' ≤ c ∧ c ≤ 'F' then c.toNat - 55
    else if 'a' ≤ c ∧ c ≤ 'f' then c.toNat - 87
    else 16
  if v < base then some v else none

/-- Digits read on from a value already read. -/
def readDigits (base : Nat) : Nat → List Char → Option Nat
  | acc, [] => some acc
  | acc, c :: cs =>
    match digitValue base c with
    | none => none
    | some v => readDigits base (acc * base + v) cs

/-- A number of at least one digit. -/
def readNumber (base : Nat) : List Char → Option Nat
  | [] => none
  | cs => readDigits base 0 cs

/-- A line up to its comment (R60: comments run from `;` to the end of the line). -/
def beforeComment : List Char → List Char
  | [] => []
  | c :: cs => if c = ';' then [] else c :: beforeComment cs

/-- A line cut at its spaces; `cur` is the word being read, last character first. -/
def wordsOf (cur : List Char) : List Char → List (List Char)
  | [] => if cur = [] then [] else [cur.reverse]
  | c :: cs =>
    if c = ' ' then
      if cur = [] then wordsOf [] cs else cur.reverse :: wordsOf [] cs
    else wordsOf (c :: cur) cs

/-- The operand of EXTRACT: decimal, or `0x` and hexadecimal digits (R60). -/
def readWidth : List Char → Option Nat
  | '0' :: 'x' :: cs => readNumber 16 cs
  | cs => readNumber 10 cs

/-- The operand of UNIFORM: signed decimal, or `0x` and the hexadecimal digits of the raw 64-bit `arg`
(R60). -/
def readBound : List Char → Option Int
  | '0' :: 'x' :: cs =>
    match readNumber 16 cs with
    | some v => if v < 2 ^ 64 then some (BitVec.ofNat 64 v).toInt else none
    | none => none
  | '-' :: cs =>
    match readNumber 10 cs with
    | some v => some (-(v : Int))
    | none => none
  | cs =>
    match readNumber 10 cs with
    | some v => some (v : Int)
    | none => none

/-- A command that its CMD word can hold, else nothing. -/
def ifWellFormed (i : Instr) : Option Instr := if i.wellFormed then some i else none

/-- One line with one command (R60). -/
def readCommand (line : String) : Option Instr :=
  match wordsOf [] (beforeComment line.toList) with
  | [m, x] =>
    if m = "EXTRACT".toList then (readWidth x).bind fun n => ifWellFormed (.extract n)
    else if m = "UNIFORM".toList then (readBound x).bind fun N => ifWellFormed (.uniform N)
    else none
  | _ => none

/-- Two hex digits are a `Byte` reply with that value, `!!` is a `Fail` reply (R61). -/
def readReply : List Char → Option SrcrWord
  | ['!', '!'] => some failWord
  | [a, b] => (readNumber 16 [a, b]).map fun v => byteWord (BitVec.ofNat 8 v)
  | _ => none

/-- A source script line, `SRC:` and its elements (R61). -/
def readScript (line : String) : Option (List SrcrWord) :=
  match wordsOf [] (beforeComment line.toList) with
  | m :: xs => if m = "SRC:".toList then xs.mapM readReply else none
  | [] => none

/-- A response as R60 writes it: `OK` and a value, `INVALID_ARGUMENT`, `SOURCE_ERROR`. -/
def readResponse (line : String) : Option Response :=
  match wordsOf [] line.toList with
  | [m, x] =>
    if m = "OK".toList then
      (readWidth x).bind fun v =>
        if v < 2 ^ 64 then some { status := .ok, result := BitVec.ofNat 64 v } else none
    else none
  | [m] =>
    if m = "INVALID_ARGUMENT".toList then some (.error .invalidArgument)
    else if m = "SOURCE_ERROR".toList then some (.error .sourceError)
    else none
  | _ => none

/-- A 65-bit or 66-bit word as R60 writes it: `0x` and 17 hex digits, with `_` as an optional
separator. -/
def readPortWord (text : String) : Option Nat :=
  match text.toList.filter fun c => c ≠ '_' with
  | '0' :: 'x' :: cs => if cs.length = 17 then readNumber 16 cs else none
  | _ => none

/-- A block just reset whose HOST will present these commands in this order and whose source is the
fixed source with this script (20_memory.md R32 item 2, 30_encoding.md R60, R61). -/
def State.forProgram (commands : List Instr) (script : List SrcrWord) : State :=
  { State.reset with
    host := { commands := commands.map encode, responses := [] }
    src := Source.ofScript .fixed script }

/-- The response of one command on a fixed source with this script, by the functions of
40_bit_extractor.md R73 and 42_range_reducer.md R101: after the script every request is answered `Fail`
(R61), so one `Fail` more than the script ends every command. -/
def responseOn (script : List SrcrWord) : Instr → Option (Response × Nat)
  | .extract n => extractReplies n (script.map replyOf ++ [.fail])
  | .uniform N => uniformReplies N (script.map replyOf ++ [.fail])

end Sys2Proof.Machine
end

