-- ==== Sys2Proof/Tests/Slice0.lean ====
section
/-! SUPPORT. The model's own tests. Expected results are the spec's: the CMD words of 30_encoding.md R60,
the tables and vectors of 95_test_vectors.md, and hand calculation from the rules named; then, for each
statement with hypotheses, a state and operands that meet them. -/

namespace Sys2Proof.Tests

open Sys2Proof.Machine

/-! ## WellFormed refuses what no CMD word can hold -/

theorem test_wellFormed_refuses_width_of_65_bits : ¬ (Instr.extract (2 ^ 64)).WellFormed := by decide
theorem test_wellFormed_refuses_bound_above : ¬ (Instr.uniform (2 ^ 63)).WellFormed := by decide
theorem test_wellFormed_refuses_bound_below : ¬ (Instr.uniform (-(2 ^ 63) - 1)).WellFormed := by decide

/-- 30_encoding.md R59: operands the block answers with INVALID_ARGUMENT are legal encodings. -/
theorem test_wellFormed_keeps_invalid_arguments :
    (Instr.extract 65).WellFormed ∧ (Instr.extract (2 ^ 64 - 1)).WellFormed ∧
      (Instr.uniform 0).WellFormed ∧ (Instr.uniform (-(2 ^ 63))).WellFormed := by decide

/-! ## Decoding, from words written out from the spec's encoding -/

/-- EXTRACT 16, bit by bit: `op` is bit 64 = 0, `arg` has bit 4 set (30_encoding.md R51, R52). -/
theorem test_decode_extract_bit_by_bit :
    decodeBits 0b00000000000000000000000000000000000000000000000000000000000010000 =
      .ok (.extract 16) := by decide

/-- UNIFORM 10, bit by bit: `op` is bit 64 = 1, `arg` has bits 3 and 1 set. -/
theorem test_decode_uniform_bit_by_bit :
    decodeBits 0b10000000000000000000000000000000000000000000000000000000000001010 =
      .ok (.uniform 10) := by decide

/-- Vector UV29: `-2^63`, bit 63 of `arg` alone. -/
theorem test_decode_uniform_most_negative :
    decodeBits 0x18000000000000000 = .ok (.uniform (-9223372036854775808)) := by decide

/-- Vector E17: the same `arg` read unsigned. -/
theorem test_decode_extract_high_bit :
    decodeBits 0x08000000000000000 = .ok (.extract 0x8000000000000000) := by decide

theorem test_decode_refuses_bit_65 : decodeBits 0x20000000000000000 = .error .notACmdWord := by decide

/-- The opcode table's rows as the host numbers them: 65 bits, in whole bytes 72. -/
theorem test_decodeTableWord_rows :
    decodeTableWord 72 0x00000000000000000 = some (.extract 0) ∧
      decodeTableWord 72 0x10000000000000000 = some (.uniform 0) := by decide

/-- 30_encoding.md R60: its commands as text and as words. -/
theorem test_text_commands :
    (readCommand "EXTRACT 16").map encode = some 0x00000000000000010#65 ∧
      (readCommand "UNIFORM 10 ; a comment").map encode = some 0x1000000000000000A#65 ∧
      (readCommand "UNIFORM -1").map encode = some 0x1FFFFFFFFFFFFFFFF#65 ∧
      (readCommand "UNIFORM 0xFFFFFFFFFFFFFFFF").map encode = some 0x1FFFFFFFFFFFFFFFF#65 := by decide

/-- 30_encoding.md R60: its responses as text and as words. -/
theorem test_text_responses :
    ((readResponse "OK 0x3412").map fun p => p.word.toNat) = readPortWord "0x0_0000_0000_0000_3412" ∧
      ((readResponse "INVALID_ARGUMENT").map fun p => p.word.toNat) =
        readPortWord "0x1_0000_0000_0000_0000" ∧
      ((readResponse "SOURCE_ERROR").map fun p => p.word.toNat) =
        readPortWord "0x2_0000_0000_0000_0000" := by decide

/-- 30_encoding.md R61: a script with an explicit `Fail`. -/
theorem test_text_script :
    (readScript "SRC: 11 !! 33").map (fun ws => ws.map replyOf) =
      some [.byte 0x11#8, .fail, .byte 0x33#8] := by decide

/-- 30_encoding.md R58: `data` of a `Fail` reply is ignored. -/
theorem test_reply_fail_ignores_data : replyOf 0x1FF#9 = .fail ∧ replyOf 0x0FF#9 = .byte 0xFF#8 := by decide

/-! ## The pure functions, from the tables of 95_test_vectors.md -/

/-- Section 2, minBytes, rows up to `0xFFFF_FFFF`. -/
theorem test_minBytes_low_rows :
    minBytes 0x0 = 0 ∧ minBytes 0x1 = 1 ∧ minBytes 0x7F = 1 ∧ minBytes 0xFF = 1 ∧ minBytes 0x100 = 2 ∧
      minBytes 0xFFFF = 2 ∧ minBytes 0x10000 = 3 ∧ minBytes 0xFFFFFF = 3 ∧ minBytes 0x1000000 = 4 ∧
      minBytes 0xFFFFFFFF = 4 := by decide

/-- Section 2, minBytes, the remaining rows. -/
theorem test_minBytes_high_rows :
    minBytes 0x100000000 = 5 ∧ minBytes 0xFFFFFFFFFF = 5 ∧ minBytes 0x10000000000 = 6 ∧
      minBytes 0xFFFFFFFFFFFF = 6 ∧ minBytes 0x1000000000000 = 7 ∧ minBytes 0xFFFFFFFFFFFFFF = 7 ∧
      minBytes 0x100000000000000 = 8 ∧ minBytes 0x7FFFFFFFFFFFFFFE = 8 ∧
      minBytes 0xFFFFFFFFFFFFFFFF = 8 := by decide

/-- Section 3, mask values, with the special case at 64. -/
theorem test_mask_values :
    mask 0 = 0x0 ∧ mask 1 = 0x1 ∧ mask 9 = 0x1FF ∧ mask 53 = 0x1FFFFFFFFFFFFF ∧
      mask 63 = 0x7FFFFFFFFFFFFFFF ∧ mask 64 = 0xFFFFFFFFFFFFFFFF := by decide

/-- Section 4.1, LIMIT on the general path, one row per width. -/
theorem test_limit_values :
    limitFor 10 = 250 ∧ limitFor 129 = 129 ∧ limitFor 1000 = 65000 ∧ limitFor 0x10001 = 0xFF00FF ∧
      limitFor 0x1000001 = 0xFF0000FF ∧ limitFor 0x100000001 = 0xFF000000FF ∧
      limitFor 0xFFFFFFFFFFFFFF = 0xFFFFFFFFFFFFFF := by decide

/-- Section 4.1, LIMIT at full width, where `M = 2^64`. -/
theorem test_limit_full_width :
    limitFor 0x100000000000001 = 0xFF000000000000FF ∧ limitFor 0xDE0B6B3A7640000 = 0xF9CCD8A1C5080000 ∧
      limitFor 0x4000000000000001 = 0xC000000000000003 ∧
      limitFor 0x7FFFFFFFFFFFFFFF = 0xFFFFFFFFFFFFFFFE := by decide

/-! ## Whole commands by their reply functions, from sections 3 and 4.2 -/

/-- The response to a command line on a script line, as RSP word, with the number of requests. -/
def answerTo (command script : String) : Option (Nat × Nat) :=
  (readCommand command).bind fun i =>
    (readScript script).bind fun ws =>
      (responseOn ws i).map fun p => (p.1.word.toNat, p.2)

/-- E9: `0xFF0201 & 0x1FFFF`; E12: one bit of the eighth byte. -/
theorem test_extract_masks_the_last_byte :
    answerTo "EXTRACT 17" "SRC: 01 02 FF" = some (0x00000000000010201, 3) ∧
      answerTo "EXTRACT 57" "SRC: 01 02 03 04 05 06 07 FF" = some (0x00107060504030201, 8) := by decide

/-- E19 short read, E21 explicit `Fail`, E16 invalid width, E22 empty fill. -/
theorem test_extract_errors :
    answerTo "EXTRACT 16" "SRC: 12" = some (0x20000000000000000, 2) ∧
      answerTo "EXTRACT 24" "SRC: 11 !! 33" = some (0x20000000000000000, 2) ∧
      answerTo "EXTRACT 65" "SRC: FF" = some (0x10000000000000000, 0) ∧
      answerTo "EXTRACT 0" "SRC:" = some (0, 0) := by decide

/-- UV12 and UV25: a draw equal to LIMIT or above it is rejected, the next is reduced. -/
theorem test_uniform_rejects_and_reduces :
    answerTo "UNIFORM 257" "SRC: FF FF 00 01" = some (0x100, 4) ∧
      answerTo "UNIFORM 1000000000000000000"
        "SRC: 00 00 08 C5 A1 D8 CC F9 FF FF 07 C5 A1 D8 CC F9" = some (0xDE0B6B3A763FFFF, 16) := by decide

/-- UV18 (two rejections, then an exhausted source), UV28, UV2, UV10. -/
theorem test_uniform_errors_and_fast_path :
    answerTo "UNIFORM 1000" "SRC: 17 FE 18 FE" = some (0x20000000000000000, 5) ∧
      answerTo "UNIFORM -1" "SRC: 01" = some (0x10000000000000000, 0) ∧
      answerTo "UNIFORM 1" "SRC: 55" = some (0, 0) ∧
      answerTo "UNIFORM 256" "SRC: AB CD" = some (0xAB, 1) := by decide

/-! ## Single steps, from the traces of section 5 -/

/-- The registers a step leaves, and nothing where it does not answer a next state. -/
def regsAfter (o : Host.Outcome State Fault Refusal) : Option Urr :=
  match o with
  | .next t => some t.urr
  | .fault _ => none
  | .refused _ => none

/-- A fixed source, one idle turn after another, and no commands, around these registers. -/
def around (u : Urr) (script : List SrcrWord) : State :=
  { urr := u, host := { commands := [], responses := [] }, src := Source.ofScript .fixed script,
    schedule := [] }

/-- T1 after ACCEPT of UNIFORM 10. -/
def t1Accepted : Urr :=
  { phase := .fill, op := .uniform, arg := 10#64, bits := 8#7, limit := 0xFA#64, buf := 0#64, cnt := 0#4,
    status := .ok, result := 0#64 }

/-- T2 after ACCEPT of EXTRACT 9. -/
def t2Accepted : Urr :=
  { phase := .fill, op := .extract, arg := 9#64, bits := 9#7, limit := 0#64, buf := 0#64, cnt := 0#4,
    status := .ok, result := 0#64 }

/-- T4 after ACCEPT of UNIFORM 1. -/
def t4Accepted : Urr :=
  { phase := .fill, op := .uniform, arg := 1#64, bits := 0#7, limit := 0#64, buf := 0#64, cnt := 0#4,
    status := .ok, result := 0#64 }

/-- T1, ACCEPT. -/
theorem test_step_accepts_uniform :
    regsAfter (step (State.forProgram [.uniform 10] [])) = some t1Accepted := by decide

/-- T2, ACCEPT. -/
theorem test_step_accepts_extract :
    regsAfter (step (State.forProgram [.extract 9] [])) = some t2Accepted := by decide

/-- T5, ACCEPT of EXTRACT 65: straight to DONE with INVALID_ARGUMENT. -/
theorem test_step_refuses_width_65 :
    regsAfter (step (State.forProgram [.extract 65] [])) =
      some { Urr.zero with phase := .done, arg := 65#64, status := .invalidArgument } := by decide

/-- T2, the second BYTE. -/
theorem test_step_stores_the_second_byte :
    regsAfter (step (around { t2Accepted with buf := 0xFF#64, cnt := 1#4 } [byteWord 0xFF#8])) =
      some { t2Accepted with buf := 0xFFFF#64, cnt := 2#4 } := by decide

/-- T3, `Fail` after one byte: the byte is wiped (EXTRACT 16). -/
theorem test_step_source_error :
    regsAfter (step (around { t2Accepted with arg := 16#64, bits := 16#7, buf := 0x12#64, cnt := 1#4 } [])) =
      some { t2Accepted with
        phase := .done, arg := 16#64, bits := 16#7, status := .sourceError } := by decide

/-- T2, FINISH. -/
theorem test_step_finishes_extract :
    regsAfter (step (around { t2Accepted with buf := 0xFFFF#64, cnt := 2#4 } [])) =
      some { t2Accepted with phase := .done, result := 0x1FF#64 } := by decide

/-- T1, FINISH: `0xFA ≥ 0xFA` is rejected. -/
theorem test_step_rejects_the_limit :
    regsAfter (step (around { t1Accepted with buf := 0xFA#64, cnt := 1#4 } [])) = some t1Accepted := by
  decide

/-- T1, FINISH: `7 < 250` is accepted. -/
theorem test_step_accepts_a_draw :
    regsAfter (step (around { t1Accepted with buf := 7#64, cnt := 1#4 } [])) =
      some { t1Accepted with phase := .done, result := 7#64 } := by decide

/-- T4, FINISH with no byte read. -/
theorem test_step_finishes_uniform_one :
    regsAfter (step (around t4Accepted [byteWord 0x55#8])) = some { t4Accepted with phase := .done } := by
  decide

/-- T1, RESPOND: the word `0x0_0000_0000_0000_0007` goes to HOST and every register is cleared. -/
theorem test_step_responds :
    step (around { t1Accepted with phase := .done, result := 7#64 } []) =
      .next { around Urr.zero [] with
        host := { commands := [], responses := [0x00000000000000007#66] } } := rfl

/-- T6, RESET in mid-command. -/
theorem test_step_reset_in_mid_command :
    step { around { t1Accepted with arg := 1000#64, bits := 16#7, limit := 0xFDE8#64, buf := 0x18#64,
                                    cnt := 1#4 } [] with schedule := [.reset false] } =
      .next (around Urr.zero []) := rfl

/-- The first step after reset runs the command placed (notes/assumptions/2.md). -/
theorem test_withFetchWord_runs_next :
    regsAfter (step (State.reset.withFetchWord 72 0x1000000000000000A)) = some t1Accepted := by decide

/-! ## Witnesses: for every statement with hypotheses, a state and operands that meet them together, at
the boundaries of each clause -/

/-- T1 with its first draw complete and equal to LIMIT. -/
def t1AtLimit : Urr := { t1Accepted with buf := 0xFA#64, cnt := 1#4 }

/-- T1 with a complete draw below LIMIT. -/
def t1Below : Urr := { t1Accepted with buf := 7#64, cnt := 1#4 }

/-- T2 with its fill complete. -/
def t2Full : Urr := { t2Accepted with buf := 0xFFFF#64, cnt := 2#4 }

/-- T1 with its response waiting. -/
def t1Done : Urr := { t1Accepted with phase := .done, result := 7#64 }

/-- UNIFORM `2^62` with its fill complete: the largest valid power of two, NEED = 8. -/
def pow62Full : Urr :=
  { t1Accepted with arg := 0x4000000000000000#64, bits := 64#7, limit := 0#64,
                    buf := 0xFFFFFFFFFFFFFFFF#64, cnt := 8#4 }

/-- EXTRACT 64 with its fill complete. -/
def extract64Full : Urr :=
  { t2Accepted with arg := 64#64, bits := 64#7, buf := 0x0807060504030201#64, cnt := 8#4 }

/-- An idle block with these commands presented and this script. -/
def presented (commands : List Instr) (script : List SrcrWord) : State := State.forProgram commands script

theorem witness_zero_inv : Urr.zero.Inv :=
  ⟨by unfold Urr.IdleInv; decide, by unfold Urr.FillInv; decide, by unfold Urr.OperandInv; decide,
    by unfold Urr.DoneInv; decide⟩

theorem witness_t1Accepted_inv : t1Accepted.Inv :=
  ⟨by unfold Urr.IdleInv; decide, by unfold Urr.FillInv; decide, by unfold Urr.OperandInv; decide,
    by unfold Urr.DoneInv; decide⟩

theorem witness_t2Full_inv : t2Full.Inv :=
  ⟨by unfold Urr.IdleInv; decide, by unfold Urr.FillInv; decide, by unfold Urr.OperandInv; decide,
    by unfold Urr.DoneInv; decide⟩

theorem witness_t1Done_inv : t1Done.Inv :=
  ⟨by unfold Urr.IdleInv; decide, by unfold Urr.FillInv; decide, by unfold Urr.OperandInv; decide,
    by unfold Urr.DoneInv; decide⟩

theorem witness_DecodeOfEncodeIsTheCommand :
    (Instr.extract (2 ^ 64 - 1)).WellFormed ∧ (Instr.uniform (2 ^ 63 - 1)).WellFormed ∧
      (Instr.uniform (-(2 ^ 63))).WellFormed := by decide

theorem witness_OpcodeMapSelectsTheCommand :
    0x0FFFFFFFFFFFFFFFF#65 &&& 0x10000000000000000#65 = 0#65 ∧
      0x18000000000000000#65 &&& 0x10000000000000000#65 = 0x10000000000000000#65 := by decide

theorem witness_StepFollowsTheStepTable_fill :
    (around t1Accepted []).turn = .go ∧ t1Accepted.phase = .fill ∧
      t1Accepted.cnt.toNat < t1Accepted.need ∧ (around t1Accepted []).src.answer = some failWord ∧
      failWord.getLsbD 8 = true ∧ t1AtLimit.cnt.toNat = t1AtLimit.need := by decide

theorem witness_StepFollowsTheStepTable_idle :
    (presented [.extract 64] []).urr.phase = .idle ∧
      (presented [.extract 64] []).host.commands = encode (.extract 64) :: [] ∧
      opField (encode (.extract 64)) = 0#1 ∧ opField (encode (.uniform 10)) = 1#1 := by decide

theorem witness_EveryCmdWordIsExactlyOneCommand :
    (Instr.uniform (-1)).WellFormed ∧ encode (.uniform (-1)) = 0x1FFFFFFFFFFFFFFFF#65 := by decide

theorem witness_StepRunsThePresentedCommand :
    (presented [.uniform 10] []).turn = .go ∧ (presented [.uniform 10] []).urr.phase = .idle ∧
      (presented [.uniform 10] []).host.commands = 0x1000000000000000A#65 :: [] ∧
      decodeWord 0x1000000000000000A#65 = .uniform 10 ∧ (Instr.uniform 10).WellFormed := by decide

theorem witness_StepRunsTheCommandInFlight :
    (around t1Accepted []).turn = .go ∧ (around t1Accepted []).urr.phase ≠ .idle := by decide

theorem witness_PlacedWordRunsNext :
    decodeTableWord 72 0x1000000000000000A = some (.uniform 10) ∧
      (around t1Accepted []).urr.phase ≠ .idle ∧ State.reset.urr.phase = .idle := by decide

theorem witness_ExtractIsAccepted :
    (presented [.extract 64] []).urr.phase = .idle ∧ 64 ≤ 64 ∧ 64 < 65 ∧ 2 ^ 64 - 1 < 2 ^ 64 := by decide

theorem witness_UniformIsAccepted :
    (presented [.uniform 1] []).urr.phase = .idle ∧ (1 : Int) ≤ 1 ∧ (2 : Int) ^ 63 - 1 < 2 ^ 63 ∧
      -(2 ^ 63) ≤ -(2 ^ 63 : Int) ∧ (0 : Int) ≤ 0 := by decide

theorem witness_CommandIsSampledOnce_idle :
    (presented [.uniform 10] []).turn = .go ∧ (presented [.uniform 10] []).urr.phase = .idle ∧
      (presented [.uniform 10] []).host.commands = 0x1000000000000000A#65 :: [] ∧
      regsAfter (step (presented [.uniform 10] [])) = some t1Accepted := by decide

theorem witness_CommandIsSampledOnce_busy :
    (around t1AtLimit []).urr.phase ≠ .idle ∧ step (around t1AtLimit []) = .next (around t1Accepted []) :=
  ⟨by decide, rfl⟩

theorem witness_BusyBlockServesNoOtherCommand :
    (Instr.extract 10).WellFormed ∧ (around t1Accepted []).urr.phase ≠ .idle ∧
      Instr.extract 10 ≠ (around t1Accepted []).urr.inFlight := by decide

theorem witness_SourceReplyIsTaken :
    t1Accepted.FillInv ∧ t1Accepted.phase = .fill ∧ t1Accepted.cnt.toNat < t1Accepted.need ∧
      (around t1Accepted [byteWord 7#8]).src.answer = some (byteWord 7#8) ∧
      (byteWord 7#8).getLsbD 8 = false ∧
      (around t1Accepted [failWord]).src.answer = some failWord ∧ failWord.getLsbD 8 = true := by
  unfold Urr.FillInv
  decide

/-- The same at the last byte of a fill of eight. -/
theorem witness_SourceReplyIsTaken_last_byte :
    ({ extract64Full with buf := 0x07060504030201#64, cnt := 7#4 } : Urr).FillInv ∧
      ({ extract64Full with buf := 0x07060504030201#64, cnt := 7#4 } : Urr).srcRequest = true := by
  unfold Urr.FillInv
  decide

theorem witness_WaitingKeepsEverything :
    ({ State.reset with schedule := [.wait] } : State).turn = .wait ∧
      (State.reset.turn = .go ∧ State.reset.urr.phase = .idle ∧ State.reset.host.commands = []) := by decide

/-- The third way to wait depends on the free value: a source that never replies to request `served`. -/
theorem witness_WaitingKeepsEverything_no_reply (h : Config.sourceReply 0 = none) :
    (around t1Accepted []).turn = .go ∧ t1Accepted.phase = .fill ∧
      t1Accepted.cnt.toNat < t1Accepted.need ∧
      ({ script := [], kind := .unconstrained, served := 0 } : Source).answer = none :=
  ⟨by decide, by decide, by decide, h⟩

theorem witness_SourceIsReadOnlyOnRequest :
    step (around t1AtLimit []) = .next (around t1Accepted []) ∧ t1AtLimit.srcRequest = false ∧
      t1Accepted.srcRequest = true :=
  ⟨rfl, by decide, by decide⟩

theorem witness_ExtractFinishes :
    extract64Full.phase = .fill ∧ extract64Full.op = .extract ∧ extract64Full.arg = BitVec.ofNat 64 64 ∧
      extract64Full.cnt.toNat = extract64Full.need := by decide

theorem witness_UniformFinishesOnThePowerOfTwoPath :
    pow62Full.phase = .fill ∧ pow62Full.op = .uniform ∧ pow62Full.arg = BitVec.ofInt 64 (2 ^ 62) ∧
      pow62Full.cnt.toNat = pow62Full.need ∧ pow62Full.arg &&& (pow62Full.arg - 1#64) = 0#64 := by decide

/-- UNIFORM 1, whose fill is empty, is on the same path. -/
theorem witness_UniformFinishesOnThePowerOfTwoPath_one :
    t4Accepted.phase = .fill ∧ t4Accepted.op = .uniform ∧ t4Accepted.arg = BitVec.ofInt 64 1 ∧
      t4Accepted.cnt.toNat = t4Accepted.need ∧ t4Accepted.arg &&& (t4Accepted.arg - 1#64) = 0#64 := by
  decide

theorem witness_UniformAcceptsADrawBelowTheLimit :
    t1Below.phase = .fill ∧ t1Below.op = .uniform ∧ t1Below.arg = BitVec.ofInt 64 10 ∧
      t1Below.cnt.toNat = t1Below.need ∧ t1Below.arg &&& (t1Below.arg - 1#64) ≠ 0#64 ∧
      (t1Below.buf &&& mask t1Below.bits.toNat).toNat < t1Below.limit.toNat := by decide

theorem witness_UniformDiscardsADrawAtOrAboveTheLimit :
    t1AtLimit.phase = .fill ∧ t1AtLimit.op = .uniform ∧ t1AtLimit.arg = BitVec.ofInt 64 10 ∧
      t1AtLimit.cnt.toNat = t1AtLimit.need ∧ t1AtLimit.arg &&& (t1AtLimit.arg - 1#64) ≠ 0#64 ∧
      t1AtLimit.limit.toNat ≤ (t1AtLimit.buf &&& mask t1AtLimit.bits.toNat).toNat ∧
      t1AtLimit.OperandInv := by
  unfold Urr.OperandInv
  decide

theorem witness_ResponseIsDelivered : (around t1Done []).urr.phase = .done := by decide

theorem witness_OneResponsePerAcceptedCommand :
    step (around t1AtLimit []) = .next (around t1Accepted []) ∧
      (∀ c, (around t1AtLimit []).turn ≠ .reset c) ∧
      step { around t1Done [] with schedule := [.reset true] } = .next (around Urr.zero []) ∧
      ({ around t1Done [] with schedule := [.reset true] } : State).turn = .reset true :=
  ⟨rfl, by decide, rfl, by decide⟩

theorem witness_DeliveredWordsAreWellFormed :
    (around t1Done []).urr.Inv ∧ regsAfter (step (around t1Done [])) = some Urr.zero :=
  ⟨witness_t1Done_inv, by decide⟩

theorem witness_CommandFrame :
    exec (.uniform 10) (around t1AtLimit []) = .next (around t1Accepted []) ∧
      t1AtLimit.phase = .fill ∧ t1AtLimit.srcRequest = false ∧
      regsAfter (exec (.uniform 10) (around t1Accepted [byteWord 7#8])) = some t1Below ∧
      t1Accepted.srcRequest = true :=
  ⟨rfl, by decide, by decide, by decide, by decide⟩

theorem witness_ResetClearsTheBlockInAnyState :
    ({ around t1Accepted [] with schedule := [.reset true] } : State).turn = .reset true ∧
      ({ around t1Done [] with schedule := [.reset false] } : State).turn = .reset false := by decide

theorem witness_StepKeepsTheRegisterInvariants :
    (around t2Full []).urr.Inv ∧
      regsAfter (step (around t2Full [])) = some { t2Accepted with phase := .done, result := 0x1FF#64 } :=
  ⟨witness_t2Full_inv, by decide⟩

theorem witness_RegisterInvariantsHoldOnEveryRun :
    (presented [.uniform 10] []).urr = State.reset.urr ∧
      ∃ t, core.run 1 (presented [.uniform 10] []) = .next t :=
  ⟨by decide, _, rfl⟩

theorem witness_EarlierCommandsDoNotMatter :
    (presented [.uniform 10] []).urr.Inv ∧ (presented [.uniform 10] []).urr.phase = .idle ∧
      ∃ t, core.run 1 (presented [.uniform 10] []) = .next t :=
  ⟨witness_zero_inv, by decide, _, rfl⟩

theorem witness_InvalidArgumentExactly :
    (presented [.extract 65] []).urr.status ≠ .invalidArgument ∧
      (presented [.extract 65] []).host.commands = [encode (.extract 65)] ∧
      opField (encode (.extract 65)) = 0#1 ∧ 64 < (argField (encode (.extract 65))).toNat ∧
      opField (encode (.uniform 0)) = 1#1 ∧ (argField (encode (.uniform 0))).toInt ≤ 0 ∧
      ∃ t, step (presented [.extract 65] []) = .next t :=
  ⟨by decide, by decide, by decide, by decide, by decide, by decide, _, rfl⟩

theorem witness_SourceErrorExactly :
    (around t1Accepted []).urr.status ≠ .sourceError ∧
      (∃ t, step (around t1Accepted []) = .next t) ∧
      (around t1Accepted []).src.answer = some failWord ∧ failWord.getLsbD 8 = true ∧
      t4Accepted.bits = 0#7 :=
  ⟨by decide, ⟨_, rfl⟩, by decide, by decide, by decide⟩

theorem witness_MaskKeepsTheLowBits : 64 ≤ 64 ∧ 0 ≤ 64 ∧ 63 < 64 := by decide

/-- EXTRACT 64 just accepted, on a source that gives the bytes 1 to 8. -/
def extract64Started : State :=
  around { extract64Full with buf := 0#64, cnt := 0#4 }
    ([1#8, 2#8, 3#8, 4#8, 5#8, 6#8, 7#8, 8#8].map byteWord)

theorem witness_BufHoldsTheAssembledBytes :
    [1#8, 2#8, 3#8, 4#8, 5#8, 6#8, 7#8, 8#8].length ≤ 8 ∧ extract64Started.urr.phase = .fill ∧
      extract64Started.urr.buf = 0#64 ∧ extract64Started.urr.cnt = 0#4 ∧
      [1#8, 2#8, 3#8, 4#8, 5#8, 6#8, 7#8, 8#8].length ≤ extract64Started.urr.need ∧
      extract64Started.schedule = [] ∧
      extract64Started.src.script = [1#8, 2#8, 3#8, 4#8, 5#8, 6#8, 7#8, 8#8].map byteWord ++ [] := by
  decide

theorem witness_MinBytesIsTheLeastByteCount :
    0xFF#64 ≠ 0#64 ∧ (0xFF#64).toNat < 2 ^ (8 * 1) ∧ 7 < 8 ∧ minBytes 0xFFFFFFFFFFFFFF#64 ≤ 7 := by decide

theorem witness_MinBytesIsMonotone :
    (0xFFFFFFFFFFFFFF#64).toNat ≤ (0x100000000000000#64).toNat ∧
      2 ^ 56 ≤ (0x100000000000000#64).toNat := by decide

theorem witness_BitsForIsTheLeastWidth :
    1 ≤ (1#64).toNat ∧ (0x7FFFFFFFFFFFFFFF#64).toNat < 2 ^ 63 ∧ 8 ≤ bitsFor 2#64 ∧
      isPow2 0x7FFFFFFFFFFFFFFF#64 = false ∧ isPow2 3#64 = false := by decide

theorem witness_LimitFormulasAgree :
    1 ≤ (0x100000000000001#64).toNat ∧ (0x100000000000001#64).toNat < 2 ^ 63 ∧
      isPow2 0x100000000000001#64 = false ∧ bitsFor 0x100000000000001#64 = 64 := by decide

theorem witness_MoreThanHalfOfTheDrawsAreAccepted :
    1 ≤ (129#64).toNat ∧ (129#64).toNat < 2 ^ 63 ∧ isPow2 129#64 = false := by decide

theorem witness_EveryResultHasTheSameNumberOfDraws :
    isPow2 3#64 = false ∧ 2 < (3#64).toNat ∧ isPow2 1#64 = true ∧ 0 < (1#64).toNat := by decide

theorem witness_UniformFinishIsUnbiased :
    t1AtLimit.OperandInv ∧ t1AtLimit.phase = .fill ∧ t1AtLimit.op = .uniform ∧
      0 < t1AtLimit.arg.toNat ∧ 9 < t1AtLimit.arg.toNat := by
  unfold Urr.OperandInv
  decide

theorem witness_ExtractFinishIsUnbiased :
    9 ≤ 64 ∧ t2Full.bits.toNat = 9 ∧ 511 < 2 ^ 9 ∧ t4Accepted.bits.toNat = 0 ∧ 0 < 2 ^ 0 := by decide

theorem witness_ExtractResultHasOnlyTheRequestedBits :
    t2Full.FillInv ∧ t2Full.OperandInv ∧ t2Full.phase = .fill ∧ t2Full.op = .extract ∧
      t2Full.arg = BitVec.ofNat 64 9 ∧ t2Full.cnt.toNat = t2Full.need := by
  refine ⟨?_, ?_, by decide⟩
  · unfold Urr.FillInv; decide
  · unfold Urr.OperandInv; decide

theorem witness_ExtractResultHasOnlyTheRequestedBits_64 :
    extract64Full.FillInv ∧ extract64Full.OperandInv ∧ extract64Full.phase = .fill ∧
      extract64Full.op = .extract ∧ extract64Full.arg = BitVec.ofNat 64 64 ∧
      extract64Full.cnt.toNat = extract64Full.need := by
  refine ⟨?_, ?_, by decide⟩
  · unfold Urr.FillInv; decide
  · unfold Urr.OperandInv; decide

theorem witness_UniformResultIsBelowTheBound :
    (1 : Int) ≤ 10 ∧ (10 : Int) < 2 ^ 63 ∧ t1Below.phase = .fill ∧ t1Below.op = .uniform ∧
      t1Below.arg = BitVec.ofInt 64 10 ∧ t1Below.cnt.toNat = t1Below.need ∧
      exec (.uniform 10) (around t1Below []) = .next (around t1Done []) ∧ t1Done.phase = .done :=
  ⟨by decide, by decide, by decide, by decide, by decide, by decide, rfl, by decide⟩

theorem witness_ExtractMatchesItsReplyFunction :
    (presented [.extract 16] [byteWord 0x12#8]).urr = Urr.zero ∧
      (presented [.extract 16] [byteWord 0x12#8]).host.commands = encode (.extract 16) :: [] ∧
      (presented [.extract 16] [byteWord 0x12#8]).schedule = [] ∧
      extractReplies 16 [.byte 0x12#8] = none ∧
      extractReplies 16 [.byte 0x12#8, .fail] = some (.error .sourceError, 2) := by decide

theorem witness_UniformMatchesItsReplyFunction :
    (presented [.uniform 10] [byteWord 0xFA#8]).urr = Urr.zero ∧
      (presented [.uniform 10] [byteWord 0xFA#8]).host.commands = encode (.uniform 10) :: [] ∧
      (presented [.uniform 10] [byteWord 0xFA#8]).schedule = [] ∧
      uniformReplies 10 [.byte 0xFA#8] = none ∧
      uniformReplies 10 [.byte 0xFA#8, .byte 7#8] =
        some ({ status := .ok, result := 7#64 }, 2) := by decide

theorem witness_ExtractRunsToItsResponse :
    [0x12#8, 0x34#8].length = (16 + 7) / 8 ∧
      (presented [.extract 16] [byteWord 0x12#8, byteWord 0x34#8]).urr = Urr.zero ∧
      (presented [.extract 16] [byteWord 0x12#8, byteWord 0x34#8]).host.commands =
        encode (.extract 16) :: [] ∧
      (presented [.extract 16] [byteWord 0x12#8, byteWord 0x34#8]).src.script =
        [0x12#8, 0x34#8].map byteWord ++ [] ∧
      (presented [.extract 16] [byteWord 0x12#8, byteWord 0x34#8]).schedule = [] := by decide

/-- The smallest bound, which reads nothing. -/
theorem witness_UniformOfAPowerOfTwoDrawsOnce :
    0 ≤ 62 ∧ ([] : List Byte).length = minBytes (BitVec.ofNat 64 (2 ^ 0 - 1)) ∧
      (presented [.uniform (2 ^ 0)] []).urr = Urr.zero ∧
      (presented [.uniform (2 ^ 0)] []).host.commands = encode (.uniform (2 ^ 0)) :: [] ∧
      (presented [.uniform (2 ^ 0)] []).schedule = [] ∧
      (presented [.uniform (2 ^ 0)] []).src.script = ([] : List Byte).map byteWord ++ [] := by decide

/-- UNIFORM `2^62` presented, on a source that gives the bytes 1 to 8. -/
def pow62Presented : State :=
  presented [.uniform (2 ^ 62)] ([1#8, 2#8, 3#8, 4#8, 5#8, 6#8, 7#8, 8#8].map byteWord)

/-- The largest bound that is a power of two. -/
theorem witness_UniformOfAPowerOfTwoDrawsOnce_62 :
    62 ≤ 62 ∧
      [1#8, 2#8, 3#8, 4#8, 5#8, 6#8, 7#8, 8#8].length = minBytes (BitVec.ofNat 64 (2 ^ 62 - 1)) ∧
      pow62Presented.urr = Urr.zero ∧
      pow62Presented.host.commands = encode (.uniform (2 ^ 62)) :: [] ∧
      pow62Presented.schedule = [] ∧
      pow62Presented.src.script = [1#8, 2#8, 3#8, 4#8, 5#8, 6#8, 7#8, 8#8].map byteWord ++ [] := by
  decide

/-- UNIFORM 10 presented, on a source that gives two bytes 0xFF. -/
def rejectedTwice : State := presented [.uniform 10] [byteWord 0xFF#8, byteWord 0xFF#8]

theorem witness_RejectionLoopHasNoCap :
    (1 : Int) ≤ 10 ∧ (10 : Int) < 2 ^ 63 ∧ isPow2 (BitVec.ofInt 64 10) = false ∧
      rejectedTwice.urr = Urr.zero ∧ rejectedTwice.host.commands = encode (.uniform 10) :: [] ∧
      rejectedTwice.schedule = [] ∧
      rejectedTwice.src.script =
        List.replicate (2 * minBytes (BitVec.ofInt 64 10 - 1#64)) (byteWord 0xFF#8) ++ [] := by decide

end Sys2Proof.Tests
end

section
/-! SUPPORT. What ACCEPT, a reply and FINISH do to the registers, as rules for the proofs below. -/

namespace Sys2Proof.Machine

/-! The reply word (30_encoding.md R58). -/

/-- The `fail` field of a reply word is its bit 8. -/
theorem failField_eq_one_iff (w : SrcrWord) : w.extractLsb' 8 1 = 1#1 ↔ w.getLsbD 8 = true := by
  rw [BitVec.eq_of_getLsbD_eq_iff]
  simp

/-- A word with `fail = 1` is a `Fail` reply. -/
theorem replyOf_of_fail {w : SrcrWord} (h : w.getLsbD 8 = true) : replyOf w = .fail :=
  if_pos ((failField_eq_one_iff w).mpr h)

/-- A word with `fail = 0` is a `Byte` reply with its `data`. -/
theorem replyOf_of_not_fail {w : SrcrWord} (h : w.getLsbD 8 = false) :
    replyOf w = .byte (w.extractLsb' 0 8) :=
  if_neg fun hf => Bool.false_ne_true (h.symm.trans ((failField_eq_one_iff w).mp hf))

/-- No reply: the block waits. -/
theorem byteStep_of_no_answer (s : State) (h : s.src.answer = none) : byteStep s = s := by
  simp [byteStep, h]

/-- A `Fail` reply. -/
theorem byteStep_of_fail (s : State) {w : SrcrWord} (ha : s.src.answer = some w)
    (hr : replyOf w = .fail) :
    byteStep s = { s with urr := s.urr.raise .sourceError, src := s.src.consume } := by
  simp [byteStep, ha, hr]

/-- A `Byte` reply. -/
theorem byteStep_of_byte (s : State) {w : SrcrWord} {b : Byte} (ha : s.src.answer = some w)
    (hr : replyOf w = .byte b) :
    byteStep s = { s with urr := s.urr.storeByte b, src := s.src.consume } := by
  simp [byteStep, ha, hr]

/-! ACCEPT (40_bit_extractor.md R74, 42_range_reducer.md R102). -/

theorem acceptExtract_of_valid {a : Word} (h : extractValid a = true) (u : Urr) :
    acceptExtract a u = (u.latch .extract a).startFill a.toNat 0 := if_pos h

theorem acceptExtract_of_invalid {a : Word} (h : extractValid a = false) (u : Urr) :
    acceptExtract a u = (u.latch .extract a).raise .invalidArgument := by
  simp [acceptExtract, h]

theorem acceptUniform_of_valid {a : Word} (h : uniformValid a = true) (u : Urr) :
    acceptUniform a u =
      (u.latch .uniform a).startFill (bitsFor a) (if isPow2 a then 0 else limitFor a) := if_pos h

theorem acceptUniform_of_invalid {a : Word} (h : uniformValid a = false) (u : Urr) :
    acceptUniform a u = (u.latch .uniform a).raise .invalidArgument := by
  simp [acceptUniform, h]

/-- An EXTRACT taken leaves the block busy. -/
theorem acceptExtract_phase_ne_idle (a : Word) (u : Urr) : (acceptExtract a u).phase ≠ .idle := by
  cases h : extractValid a
  · simp [acceptExtract_of_invalid h]
  · simp [acceptExtract_of_valid h]

/-- A UNIFORM taken leaves the block busy. -/
theorem acceptUniform_phase_ne_idle (a : Word) (u : Urr) : (acceptUniform a u).phase ≠ .idle := by
  cases h : uniformValid a
  · simp [acceptUniform_of_invalid h]
  · simp [acceptUniform_of_valid h]

/-! FINISH (40_bit_extractor.md R76, 42_range_reducer.md R105 to R107). -/

/-- FINISH of either command completes it with some value or, for UNIFORM only, draws again. -/
theorem finishOf_cases (o : Op) (u : Urr) :
    (∃ v, finishOf o u = u.complete v) ∨ finishOf o u = u.redraw := by
  cases o with
  | extract => exact .inl ⟨u.r, rfl⟩
  | uniform =>
    rcases finishUniform_cases u with ⟨-, e⟩ | ⟨-, -, e⟩ | ⟨-, -, e⟩
    · exact .inl ⟨_, e⟩
    · exact .inl ⟨_, e⟩
    · exact .inr e

/-- FINISH keeps what the command has latched and computed. -/
theorem finishOf_frame (o : Op) (u : Urr) :
    (finishOf o u).op = u.op ∧ (finishOf o u).arg = u.arg ∧ (finishOf o u).bits = u.bits ∧
      (finishOf o u).limit = u.limit := by
  rcases finishOf_cases o u with ⟨v, e⟩ | e <;> simp [e]

/-- FINISH leaves a filling block busy. -/
theorem finishOf_phase_ne_idle (o : Op) (u : Urr) (h : u.phase = .fill) :
    (finishOf o u).phase ≠ .idle := by
  rcases finishOf_cases o u with ⟨v, e⟩ | e <;> simp [e, h]

/-- A number that fits a register is the register's value. -/
theorem toNat_ofNat_of_lt {k n : Nat} (h : n < 2 ^ k) : (BitVec.ofNat k n).toNat = n := by
  rw [BitVec.toNat_ofNat, Nat.mod_eq_of_lt h]

/-! The arithmetic of the general path (42_range_reducer.md R103, R109). -/

/-- A power of two passes the test `N & (N - 1) = 0` (42_range_reducer.md R100). -/
theorem isPow2_of_toNat_eq_two_pow {a : Word} {j : Nat} (h : a.toNat = 2 ^ j) : isPow2 a = true := by
  have hpos : 1 ≤ a.toNat := h ▸ Nat.two_pow_pos j
  refine decide_eq_true (BitVec.eq_of_toNat_eq ?_)
  rw [BitVec.toNat_and, toNat_sub_one a hpos, h, Nat.and_two_pow_sub_one_eq_mod]
  simp

/-- On the general path `N` does not divide `M`. -/
theorem Mof_mod_ne_zero {a : Word} (hpow : isPow2 a = false) : Mof a % a.toNat ≠ 0 := by
  intro h
  obtain ⟨j, -, hj⟩ := (Nat.dvd_prime_pow Nat.prime_two).mp (Nat.dvd_of_mod_eq_zero h)
  simp [isPow2_of_toNat_eq_two_pow hj] at hpow

/-- On the general path the limit is below `M`. -/
theorem limitFor_lt_Mof {a : Word} (hpow : isPow2 a = false) : limitFor a < Mof a := by
  have := Mof_mod_ne_zero hpow
  have := Mof_pos a
  unfold limitFor
  omega

/-- The limit of a positive bound is positive. -/
theorem limitFor_pos {a : Word} (ha : 1 ≤ a.toNat) : 0 < limitFor a := by
  have := Nat.mod_lt (Mof a) ha
  have := le_Mof a ha
  unfold limitFor
  omega

end Sys2Proof.Machine
end

section
/-! SUPPORT. A step and a run always answer a state; what a step keeps, a run keeps; and what the next
step of one command can do. -/

namespace Sys2Proof.Machine

/-- Nothing stops the machine: every step answers a next state. -/
theorem step_next (s : State) : ∃ t, step s = .next t := by
  unfold step
  split
  · exact ⟨_, rfl⟩
  · exact ⟨_, rfl⟩
  · split
    · exact ⟨_, rfl⟩
    · exact exec_next _ _

/-- A run of any length answers a state. -/
theorem run_next (k : Nat) (s : State) : ∃ t, core.run k s = .next t := by
  induction k generalizing s with
  | zero => exact ⟨s, rfl⟩
  | succ k ih =>
    obtain ⟨s', hs⟩ := step_next s
    rw [run_succ s s' k hs]
    exact ih s'

/-- What every step keeps holds after any number of steps. -/
theorem run_keeps (P : State → Prop) (hstep : ∀ s t, P s → step s = .next t → P t) {k : Nat}
    {s t : State} (hs : P s) (h : core.run k s = .next t) : P t := by
  induction k generalizing s with
  | zero =>
    rw [run_zero] at h
    injection h with h
    exact h ▸ hs
  | succ k ih =>
    obtain ⟨s', hstep', hrun⟩ := run_succ_inv s t k h
    exact ih (hstep s s' hs hstep') hrun

/-- A busy block whose turn it is runs the command in flight (10_state.md R12, R20). -/
theorem step_busy {s : State} (h : s.turn = .go) (hp : s.urr.phase ≠ .idle) :
    step s = exec s.urr.inFlight s.endTurn := by
  cases hq : s.urr.phase with
  | idle => exact absurd hq hp
  | fill => rw [step_fill s h hq]; exact (exec_inFlight_fill s.endTurn hq).symm
  | done => rw [step_done s h hq]; exact (exec_inFlight_done s.endTurn hq).symm

/-- An idle block accepts the presented word: the registers of its ACCEPT, with the word taken from
HOST's list (20_memory.md R45). -/
theorem step_accept (s : State) {w : CmdWord} {ws : List CmdWord} (h : s.turn = .go)
    (hp : s.urr.phase = .idle) (hc : s.host.commands = w :: ws) :
    step s = .next
      { s with
        urr := if opField w = 0#1 then acceptExtract (argField w) s.urr
          else acceptUniform (argField w) s.urr
        host := { s.host with commands := ws }
        schedule := s.schedule.tail } :=
  (step_idle_cons s w ws h hp hc).trans (exec_decodeWord_idle w _ hp)

/-! A busy block and the commands it serves (10_state.md R12, R20). -/

/-- OP and ARG hold the operand word of this command. -/
def Urr.Serves (u : Urr) : Instr → Prop
  | .extract n => u.op = .extract ∧ u.arg = extractArg n
  | .uniform N => u.op = .uniform ∧ u.arg = uniformArg N

/-- The command in flight, when its operand fits its word. -/
theorem Urr.inFlight_of_serves {u : Urr} {i : Instr} (hi : i.WellFormed) (h : u.Serves i) :
    u.inFlight = i := by
  cases i with
  | extract n =>
    obtain ⟨ho, ha⟩ := h
    have hn : n < 2 ^ 64 := of_decide_eq_true hi
    simpa [inFlight, ho, ha, extractArg] using hn
  | uniform N =>
    obtain ⟨ho, ha⟩ := h
    obtain ⟨hlo, hhi⟩ : -(2 ^ 63) ≤ N ∧ N < 2 ^ 63 := by
      simpa [Instr.WellFormed, Instr.wellFormed] using hi
    simp [inFlight, ho, ha, uniformArg, BitVec.toInt_ofInt_eq_self (by decide : 0 < 64) hlo hhi]

/-- The next step of the command served is that of the command in flight. -/
theorem exec_of_serves {s : State} {i : Instr} (h : s.urr.Serves i) :
    exec i s = exec s.urr.inFlight s := by
  cases i with
  | extract n =>
    obtain ⟨ho, ha⟩ := h
    simp [Urr.inFlight, ho, ha, exec_extract]
  | uniform N =>
    obtain ⟨ho, ha⟩ := h
    simp [Urr.inFlight, ho, ha, exec_uniform]

/-- A busy block leaves any other command waiting at the port. -/
theorem exec_of_not_serves {s : State} {i : Instr} (hp : s.urr.phase ≠ .idle)
    (h : ¬ s.urr.Serves i) : exec i s = .next s := by
  cases i with
  | extract n => rw [exec_extract, commandStep_other _ _ _ _ _ hp h]
  | uniform N => rw [exec_uniform, commandStep_other _ _ _ _ _ hp h]

/-- An idle block's step of a command changes the registers only. -/
theorem exec_idle {s : State} (hp : s.urr.phase = .idle) (i : Instr) :
    ∃ u, exec i s = .next { s with urr := u } := by
  cases i with
  | extract n => exact ⟨_, by rw [exec_extract, commandStep_idle _ _ _ _ _ hp]⟩
  | uniform N => exact ⟨_, by rw [exec_uniform, commandStep_idle _ _ _ _ _ hp]⟩

/-- A fill with more bytes than it needs waits. -/
theorem fillStep_wait (f : Urr → Urr) (s : State) (h : s.urr.need < s.urr.cnt.toNat) :
    fillStep f s = s := by
  simp [fillStep, h.not_gt, h.ne']

/-- A fill waits, fails, stores a byte or finishes. -/
theorem fillStep_cases (f : Urr → Urr) (s : State) :
    fillStep f s = s ∨
      (s.urr.cnt.toNat < s.urr.need ∧
        fillStep f s = { s with urr := s.urr.raise .sourceError, src := s.src.consume }) ∨
      (s.urr.cnt.toNat < s.urr.need ∧
        ∃ b, fillStep f s = { s with urr := s.urr.storeByte b, src := s.src.consume }) ∨
      (s.urr.cnt.toNat = s.urr.need ∧ fillStep f s = { s with urr := f s.urr }) := by
  rcases Nat.lt_trichotomy s.urr.cnt.toNat s.urr.need with hlt | heq | hgt
  · rw [fillStep_byte f s hlt]
    rcases byteStep_cases s with ⟨-, e⟩ | ⟨w, -, -, e⟩ | ⟨w, b, -, -, e⟩
    · exact .inl e
    · exact .inr (.inl ⟨hlt, e⟩)
    · exact .inr (.inr (.inl ⟨hlt, b, e⟩))
  · exact .inr (.inr (.inr ⟨heq, fillStep_finish f s heq⟩))
  · exact .inl (fillStep_wait f s hgt)

/-- Everything the next step of one command can do (10_state.md R20): nothing, ACCEPT, BYTE in its two
outcomes, FINISH, RESPOND. -/
theorem exec_cases {i : Instr} {s t : State} (h : exec i s = .next t) :
    t = s ∨
      (s.urr.phase = .idle ∧ ∃ u, t = { s with urr := u }) ∨
      (s.urr.phase = .fill ∧ s.urr.cnt.toNat < s.urr.need ∧
        t = { s with urr := s.urr.raise .sourceError, src := s.src.consume }) ∨
      (s.urr.phase = .fill ∧ s.urr.cnt.toNat < s.urr.need ∧
        ∃ b, t = { s with urr := s.urr.storeByte b, src := s.src.consume }) ∨
      (s.urr.phase = .fill ∧ s.urr.cnt.toNat = s.urr.need ∧
        t = { s with urr := finishOf s.urr.op s.urr }) ∨
      (s.urr.phase = .done ∧ t = respondStep s) := by
  by_cases hp : s.urr.phase = .idle
  · obtain ⟨u, e⟩ := exec_idle hp i
    exact .inr (.inl ⟨hp, u, Host.Outcome.next.inj (h.symm.trans e)⟩)
  by_cases hs : s.urr.Serves i
  · rw [exec_of_serves hs] at h
    cases hq : s.urr.phase with
    | idle => exact absurd hq hp
    | fill =>
      rw [exec_inFlight_fill s hq] at h
      injection h with h
      subst h
      rcases fillStep_cases (finishOf s.urr.op) s with e | ⟨hlt, e⟩ | ⟨hlt, b, e⟩ | ⟨heq, e⟩
      · exact .inl e
      · exact .inr (.inr (.inl ⟨rfl, hlt, e⟩))
      · exact .inr (.inr (.inr (.inl ⟨rfl, hlt, b, e⟩)))
      · exact .inr (.inr (.inr (.inr (.inl ⟨rfl, heq, e⟩))))
    | done =>
      rw [exec_inFlight_done s hq] at h
      injection h with h
      exact .inr (.inr (.inr (.inr (.inr ⟨rfl, h.symm⟩))))
  · rw [exec_of_not_serves hp hs] at h
    injection h with h
    exact .inl h.symm

end Sys2Proof.Machine
end

section
/-! PROOFS. The register invariants of 10_state.md R24 to R27. An update that ends in DONE owes R27
only, and one that stays in FILL owes R25 and R26 only; each step is one of these updates. -/

namespace Sys2Proof.Machine

/-- The idle state meets R24, and the others do not speak of IDLE. -/
theorem Urr.inv_zero : Urr.zero.Inv where
  idle _ := rfl
  fill h := by simp at h
  operand h := by simp at h
  done h := by simp at h

/-- In FILL only R25 and R26 are owed. -/
theorem Urr.inv_of_fill {u : Urr} (h : u.phase = .fill) (hf : u.FillInv) (ho : u.OperandInv) :
    u.Inv where
  idle hi := by simp [h] at hi
  fill := hf
  operand := ho
  done hd := by simp [h] at hd

/-- In DONE only R27 is owed. -/
theorem Urr.inv_of_done {u : Urr} (h : u.phase = .done) (hd : u.DoneInv) : u.Inv where
  idle hi := by simp [h] at hi
  fill hf := by simp [h] at hf
  operand hf := by simp [h] at hf
  done := hd

/-- An error raised leaves the registers of R27, from any registers. -/
theorem Urr.inv_raise {code : Status} (h : code ≠ .ok) (u : Urr) : (u.raise code).Inv :=
  inv_of_done rfl fun _ => by simp [h]

/-- A completed command meets R27 if its value is one its operand allows. -/
theorem Urr.inv_complete {u : Urr} {v : Word}
    (hextract : u.op = .extract → v.toNat < 2 ^ u.arg.toNat)
    (huniform : u.op = .uniform → v.toNat < u.arg.toNat) : (u.complete v).Inv :=
  inv_of_done rfl fun _ =>
    ⟨rfl, rfl, fun h => absurd rfl h, fun _ => hextract, fun _ => huniform⟩

/-- The start of a fill of at most 64 bits meets R25. -/
theorem Urr.fillInv_startFill {bits : Nat} (h : bits ≤ 64) (limit : Nat) (u : Urr) :
    (u.startFill bits limit).FillInv := by
  intro _
  have hbits : (u.startFill bits limit).bits.toNat = bits :=
    toNat_ofNat_of_lt (by omega : bits < 2 ^ 7)
  refine ⟨rfl, rfl, hbits.le.trans h, by simp, ?_, by simp⟩
  rw [need, hbits]
  omega

/-- A rejected draw starts the fill afresh, so it keeps R25 and R26. -/
theorem Urr.inv_redraw {u : Urr} (h : u.phase = .fill) (hu : u.Inv) : u.redraw.Inv := by
  obtain ⟨hs, hr, hb, -, hn, -⟩ := hu.fill h
  exact inv_of_fill h (fun _ => ⟨hs, hr, hb, by simp, hn, by simp⟩) hu.operand

/-- A byte that arrives keeps R25 and R26. -/
theorem Urr.inv_storeByte {u : Urr} (b : Byte) (h : u.phase = .fill)
    (hc : u.cnt.toNat < u.need) (hu : u.Inv) : (u.storeByte b).Inv := by
  obtain ⟨hs, hr, hb, -, hn, hz⟩ := hu.fill h
  have hcnt : (u.storeByte b).cnt.toNat = u.cnt.toNat + 1 := by
    rw [storeByte_cnt, BitVec.toNat_add, BitVec.toNat_ofNat]
    omega
  refine inv_of_fill h (fun _ => ⟨hs, hr, hb, ?_, hn, fun i hi hle => ?_⟩) hu.operand
  · rw [hcnt, storeByte_need]
    exact hc
  · rw [hcnt] at hle
    rw [storeByte_buf, getByte_setByte_other _ _ _ _ (by omega)]
    exact hz i hi (by omega)

/-- ACCEPT of EXTRACT, from any registers. -/
theorem acceptExtract_inv (a : Word) (u : Urr) : (acceptExtract a u).Inv := by
  cases hv : extractValid a with
  | false =>
    rw [acceptExtract_of_invalid hv]
    exact Urr.inv_raise (by decide) _
  | true =>
    have ha : a.toNat ≤ 64 := of_decide_eq_true hv
    rw [acceptExtract_of_valid hv]
    exact Urr.inv_of_fill rfl (Urr.fillInv_startFill ha _ _) fun _ =>
      ⟨fun _ => ⟨ha, toNat_ofNat_of_lt (by omega), rfl⟩, by simp⟩

/-- ACCEPT of UNIFORM, from any registers. -/
theorem acceptUniform_inv (a : Word) (u : Urr) : (acceptUniform a u).Inv := by
  cases hv : uniformValid a with
  | false =>
    rw [acceptUniform_of_invalid hv]
    exact Urr.inv_raise (by decide) _
  | true =>
    obtain ⟨hpos, hlt⟩ := (uniformValid_iff a).mp hv
    have hle := bitsFor_le a
    have hbits : (BitVec.ofNat 7 (bitsFor a)).toNat = bitsFor a :=
      toNat_ofNat_of_lt (by omega)
    rw [acceptUniform_of_valid hv]
    refine Urr.inv_of_fill rfl (Urr.fillInv_startFill hle _ _) fun _ =>
      ⟨by simp, fun _ => ⟨hpos, Nat.le_sub_one_of_lt hlt, hbits, ?_⟩⟩
    cases hp : isPow2 a with
    | true => simp [Urr.pow2, hp]
    | false =>
      have hM : limitFor a < Mof a := limitFor_lt_Mof hp
      have hlimit : (BitVec.ofNat 64 (limitFor a)).toNat = limitFor a :=
        toNat_ofNat_of_lt (hM.trans_le (Mof_le a))
      have hbounds : limitFor a = 2 ^ bitsFor a - 2 ^ bitsFor a % a.toNat ∧ 0 < limitFor a ∧
          limitFor a < 2 ^ bitsFor a := ⟨rfl, limitFor_pos hpos, hM⟩
      simpa [Urr.pow2, hp, hlimit, hbits] using hbounds

/-- `r` of a fill of at most 64 bits has no bit above BITS (10_state.md R13). -/
theorem Urr.r_toNat_lt {u : Urr} (h : u.bits.toNat ≤ 64) : u.r.toNat < 2 ^ u.bits.toNat := by
  rw [Urr.r, and_mask_toNat _ _ h]
  exact Nat.mod_lt _ (Nat.two_pow_pos _)

/-- FINISH of EXTRACT: BITS is ARG, so the masked value is below `2^ARG`. -/
theorem finishExtract_inv {u : Urr} (h : u.phase = .fill) (ho : u.op = .extract) (hu : u.Inv) :
    (finishExtract u).Inv := by
  obtain ⟨harg, hbits, -⟩ := (hu.operand h).1 ho
  refine Urr.inv_complete (fun _ => ?_) fun hn => by simp [ho] at hn
  rw [← hbits]
  exact Urr.r_toNat_lt (hbits ▸ harg)

/-- FINISH of UNIFORM: both paths complete with a value below ARG, and a rejected draw is a redraw. -/
theorem finishUniform_inv {u : Urr} (h : u.phase = .fill) (ho : u.op = .uniform) (hu : u.Inv) :
    (finishUniform u).Inv := by
  obtain ⟨hpos, -⟩ := (hu.operand h).2 ho
  rcases finishUniform_cases u with ⟨-, e⟩ | ⟨-, -, e⟩ | ⟨-, -, e⟩ <;> rw [e]
  · refine Urr.inv_complete (fun hn => by simp [ho] at hn) fun _ => ?_
    have : u.r.toNat &&& (u.arg.toNat - 1) ≤ u.arg.toNat - 1 := Nat.and_le_right
    rw [BitVec.toNat_and, toNat_sub_one _ hpos]
    omega
  · refine Urr.inv_complete (fun hn => by simp [ho] at hn) fun _ => ?_
    rw [BitVec.toNat_umod]
    exact Nat.mod_lt _ hpos
  · exact Urr.inv_redraw h hu

/-- FINISH of the command in flight. -/
theorem finishOf_inv {u : Urr} (h : u.phase = .fill) (hu : u.Inv) : (finishOf u.op u).Inv := by
  cases ho : u.op with
  | extract => exact finishExtract_inv h ho hu
  | uniform => exact finishUniform_inv h ho hu

/-- Settles O29: each way a step can go is one of the updates above. -/
theorem stepKeepsTheRegisterInvariants : Obligations.StepKeepsTheRegisterInvariants := by
  intro s t hs h
  rcases step_cases s t h with ⟨c, -, rfl⟩ | ⟨-, rfl⟩ | ⟨-, -, w, ws, -, rfl⟩ |
    ⟨-, -, -, w, -, -, rfl⟩ | ⟨-, hp, hc, w, b, -, -, rfl⟩ | ⟨-, hp, -, rfl⟩ | ⟨-, -, rfl⟩
  · exact Urr.inv_zero
  · exact hs
  · dsimp only
    split
    · exact acceptExtract_inv _ _
    · exact acceptUniform_inv _ _
  · exact Urr.inv_raise (by decide) _
  · exact Urr.inv_storeByte b hp hc hs
  · exact finishOf_inv hp hs
  · exact Urr.inv_zero

/-- Settles O26: the registers of `State.reset` are `Urr.zero`. -/
theorem resetLeavesEveryRegisterZero : Obligations.ResetLeavesEveryRegisterZero :=
  ⟨rfl, rfl, rfl, rfl, rfl, rfl, rfl, rfl, rfl⟩

/-- Settles O28: the reset registers are those of the idle state. -/
theorem resetMeetsTheRegisterInvariants : Obligations.ResetMeetsTheRegisterInvariants :=
  Urr.inv_zero

/-- Settles O30: R24 to R27 hold at reset and every step keeps them. -/
theorem registerInvariantsHoldOnEveryRun : Obligations.RegisterInvariantsHoldOnEveryRun := by
  intro s t k hs h
  have hinv : s.urr.Inv := hs ▸ Urr.inv_zero
  exact run_keeps (fun s => s.urr.Inv) stepKeepsTheRegisterInvariants hinv h

end Sys2Proof.Machine
end

section
/-! PROOFS. The step table and the command a step runs (10_state.md R12, R20). -/

namespace Sys2Proof.Machine

/-- Settles O6: one equation of `step` per turn and phase. -/
theorem stepFollowsTheStepTable : Obligations.StepFollowsTheStepTable := by
  intro s
  cases ht : s.turn with
  | reset c => exact ⟨_, step_reset s c ht, rfl⟩
  | wait => exact ⟨_, step_wait s ht, rfl⟩
  | go =>
    cases hp : s.urr.phase with
    | idle =>
      cases hc : s.host.commands with
      | nil => exact ⟨_, step_idle_none s ht hp hc, fun _ => rfl, by simp⟩
      | cons w ws =>
        refine ⟨_, step_accept s ht hp hc, by simp, ?_⟩
        intro w' ws' e
        obtain ⟨rfl, rfl⟩ := List.cons.inj e
        exact ⟨fun h => if_pos h, fun h => if_neg (by simp [h])⟩
    | fill =>
      refine ⟨_, step_fill s ht hp, fun hc => ?_, fun hc => ?_⟩
      · rw [fillStep_byte _ s.endTurn hc]
        refine ⟨fun ha => ?_, fun w ha => ⟨fun hf => ?_, fun hf => ?_⟩⟩
        · rw [byteStep_of_no_answer s.endTurn ha, State.endTurn_urr]
        · rw [byteStep_of_fail s.endTurn ha (replyOf_of_fail hf), State.endTurn_urr]
        · rw [byteStep_of_byte s.endTurn ha (replyOf_of_not_fail hf), State.endTurn_urr]
      · rw [fillStep_finish _ s.endTurn hc]
        exact ⟨fun ho => by simp [ho, finishOf], fun ho => by simp [ho, finishOf]⟩
    | done => exact ⟨_, step_done s ht hp, rfl⟩

/-- Settles O7: the rule for an idle block with a word presented. -/
theorem stepRunsThePresentedCommand : Obligations.StepRunsThePresentedCommand := by
  rintro s w ws i ht hp hc rfl -
  exact step_idle_cons s w ws ht hp hc

/-- Settles O8: `Urr.inFlight` is the command read from OP and ARG. -/
theorem stepRunsTheCommandInFlight : Obligations.StepRunsTheCommandInFlight :=
  fun _ ht hp => step_busy ht hp

/-- Settles O13: a well-formed command that OP and ARG hold is the one in flight. -/
theorem busyBlockServesNoOtherCommand : Obligations.BusyBlockServesNoOtherCommand :=
  fun _ _ hi hp hne => exec_of_not_serves hp fun hs => hne (Urr.inFlight_of_serves hi hs).symm

/-- A table word that decodes is a CMD word. -/
theorem decodeTableWord_eq_some {nbits w : Nat} {i : Instr} (h : decodeTableWord nbits w = some i) :
    w < 2 ^ 65 ∧ decodeWord (BitVec.ofNat 65 w) = i := by
  unfold decodeTableWord decodeBits at h
  by_cases hw : w < 2 ^ 65
  · rw [if_pos hw] at h
    exact ⟨hw, Option.some.inj h⟩
  · rw [if_neg hw] at h
    cases h

/-- `present` leaves the next step to the block. -/
@[simp] theorem State.present_turn (w : CmdWord) (s : State) : (s.present w).turn = .go := by
  unfold State.turn
  by_cases h : s.turn = .go
  · rw [show (s.present w).schedule = s.schedule from if_pos h]
    exact h
  · rw [show (s.present w).schedule = .go :: s.schedule from if_neg h]

/-- The block that `present` gives is idle. -/
@[simp] theorem State.present_phase (w : CmdWord) (s : State) : (s.present w).urr.phase = .idle := by
  by_cases h : s.urr.phase = .idle <;> simp [State.present, h]

/-- Settles O9: after `present` the block is idle, has its turn and is offered the word. -/
theorem placedWordRunsNext : Obligations.PlacedWordRunsNext := by
  intro s nbits w i h
  obtain ⟨hw, rfl⟩ := decodeTableWord_eq_some h
  have hidle := s.present_phase (BitVec.ofNat 65 w)
  rw [State.withFetchWord, if_pos hw]
  exact ⟨_, step_idle_cons _ _ _ (s.present_turn _) hidle rfl, hidle, rfl, rfl, fun hp => if_pos hp⟩

end Sys2Proof.Machine
end

section
/-! PROOFS. What a step leaves unchanged: the source, the count of commands, the frame. -/

namespace Sys2Proof.Machine

/-- A step keeps the source or, with a request outstanding, takes one reply from it. -/
theorem step_src {s t : State} (h : step s = .next t) :
    t.src = s.src ∨ (s.urr.srcRequest = true ∧ t.src = s.src.consume) := by
  rcases step_cases s t h with ⟨c, -, rfl⟩ | ⟨-, rfl⟩ | ⟨-, -, w, ws, -, rfl⟩ |
    ⟨-, hp, hc, w, -, -, rfl⟩ | ⟨-, hp, hc, w, b, -, -, rfl⟩ | ⟨-, -, -, rfl⟩ | ⟨-, -, rfl⟩
  · by_cases hr : (c && s.urr.srcRequest) = true
    · exact .inr ⟨(Bool.and_eq_true_iff.mp hr).2, if_pos hr⟩
    · exact .inl (if_neg hr)
  · exact .inl rfl
  · exact .inl rfl
  · exact .inr ⟨s.urr.srcRequest_iff.mpr ⟨hp, hc⟩, rfl⟩
  · exact .inr ⟨s.urr.srcRequest_iff.mpr ⟨hp, hc⟩, rfl⟩
  · exact .inl rfl
  · exact .inl rfl

/-- Settles O17: BYTE and RESET are the steps that reach the source, and both ask for a request. -/
theorem sourceIsReadOnlyOnRequest : Obligations.SourceIsReadOnlyOnRequest := by
  intro s t h
  refine ⟨fun hno => ?_, (step_src h).imp id And.right, s.urr.srcRequest_iff⟩
  rcases step_src h with e | ⟨hreq, -⟩
  · exact e
  · simp [hno] at hreq

/-! One response per accepted command (10_state.md R22, 70_reset_and_hazards.md R171, R177). -/

/-- The commands HOST has still to present, the one in flight and the responses HOST has taken. -/
def State.commandCount (s : State) : Nat :=
  s.host.commands.length + (if s.urr.phase = .idle then 0 else 1) + s.host.responses.length

/-- ACCEPT moves one command from HOST to the block, RESPOND one from the block to HOST. -/
theorem step_commandCount {s t : State} (h : step s = .next t) (hr : ∀ c, s.turn ≠ .reset c) :
    t.commandCount = s.commandCount := by
  rcases step_cases s t h with ⟨c, hc, rfl⟩ | ⟨-, rfl⟩ | ⟨-, hp, w, ws, hc, rfl⟩ |
    ⟨-, hp, -, w, -, -, rfl⟩ | ⟨-, hp, -, w, b, -, -, rfl⟩ | ⟨-, hp, -, rfl⟩ | ⟨-, hp, rfl⟩
  · exact absurd hc (hr c)
  · rfl
  · have hbusy : (if opField w = 0#1 then acceptExtract (argField w) s.urr
        else acceptUniform (argField w) s.urr).phase ≠ .idle := by
      split
      · exact acceptExtract_phase_ne_idle _ _
      · exact acceptUniform_phase_ne_idle _ _
    simp [State.commandCount, hp, hc, hbusy]
  · simp [State.commandCount, hp]
  · simp [State.commandCount, hp]
  · simp [State.commandCount, hp, finishOf_phase_ne_idle _ _ hp]
  · simp [State.commandCount, hp]
    omega

/-- A step delivers at most one response and takes none back. -/
theorem step_responses {s t : State} (h : step s = .next t) :
    t.host.responses = s.host.responses ∨ ∃ w, t.host.responses = s.host.responses ++ [w] := by
  rcases step_cases s t h with ⟨c, -, rfl⟩ | ⟨-, rfl⟩ | ⟨-, -, w, ws, -, rfl⟩ |
    ⟨-, -, -, w, -, -, rfl⟩ | ⟨-, -, -, w, b, -, -, rfl⟩ | ⟨-, -, -, rfl⟩ | ⟨-, -, rfl⟩
  · exact .inl rfl
  · exact .inl rfl
  · exact .inl rfl
  · exact .inl rfl
  · exact .inl rfl
  · exact .inl rfl
  · exact .inr ⟨_, rfl⟩

/-- Settles O23: the count is kept by every step that is no RESET, and RESET drops the command in
flight. -/
theorem oneResponsePerAcceptedCommand : Obligations.OneResponsePerAcceptedCommand := by
  intro s t h
  refine ⟨step_commandCount h, ?_, step_responses h⟩
  rintro ⟨c, hc⟩
  obtain rfl := Host.Outcome.next.inj (h.symm.trans (step_reset s c hc))
  exact ⟨rfl, rfl⟩

/-- Settles O25: the frame of each thing the next step of a command can do. -/
theorem commandFrame : Obligations.CommandFrame := by
  intro i s t h
  have hreq := s.urr.srcRequest_iff
  rcases exec_cases h with rfl | ⟨hp, u, rfl⟩ | ⟨hp, hc, rfl⟩ | ⟨hp, hc, b, rfl⟩ | ⟨hp, hc, rfl⟩ |
    ⟨hp, rfl⟩
  · simp
  · simp [hp, hreq]
  · simp [hp, hc, hreq]
  · have hother : ∀ k, k < 8 → k ≠ s.urr.cnt.toNat →
        getByte (setByte s.urr.buf s.urr.cnt.toNat b) k = getByte s.urr.buf k :=
      fun k _ hk => getByte_setByte_other _ _ _ _ hk.symm
    simpa [hp, hc, hreq] using hother
  · have := finishOf_frame s.urr.op s.urr
    simp [hp, hc, hreq, this]
  · simp [hp, hreq]

end Sys2Proof.Machine
end

section
/-! PROOFS. Runs do not depend on past responses (10_state.md R24, 60_exceptions.md R146). -/

namespace Sys2Proof.Machine

/-- The state whose HOST had taken these responses before the others. -/
def State.withPast (past : List RspWord) (s : State) : State :=
  { s with host := { s.host with responses := past ++ s.host.responses } }

/-- The state whose HOST has taken no response yet. -/
def State.forgetPast (s : State) : State :=
  { s with host := { s.host with responses := [] } }

/-- A state is itself without its past, given back its past. -/
theorem State.forgetPast_withPast (s : State) : s.forgetPast.withPast s.host.responses = s := by
  simp [forgetPast, withPast]

/-- BYTE does not read the responses HOST has taken. -/
theorem byteStep_withPast (past : List RspWord) (s : State) :
    byteStep (s.withPast past) = (byteStep s).withPast past := by
  cases ha : s.src.answer with
  | none => rw [byteStep_of_no_answer s ha, byteStep_of_no_answer (s.withPast past) ha]
  | some w =>
    cases hr : replyOf w with
    | fail => rw [byteStep_of_fail s ha hr, byteStep_of_fail (s.withPast past) ha hr]; rfl
    | byte b => rw [byteStep_of_byte s ha hr, byteStep_of_byte (s.withPast past) ha hr]; rfl

/-- A fill does not read the responses HOST has taken. -/
theorem fillStep_withPast (past : List RspWord) (f : Urr → Urr) (s : State) :
    fillStep f (s.withPast past) = (fillStep f s).withPast past := by
  rcases Nat.lt_trichotomy s.urr.cnt.toNat s.urr.need with hlt | heq | hgt
  · rw [fillStep_byte f s hlt, fillStep_byte f (s.withPast past) hlt, byteStep_withPast]
  · rw [fillStep_finish f s heq, fillStep_finish f (s.withPast past) heq]; rfl
  · rw [fillStep_wait f s hgt, fillStep_wait f (s.withPast past) hgt]

/-- No step reads the responses HOST has taken (10_state.md R24). -/
theorem step_withPast {s t : State} (past : List RspWord) (h : step s = .next t) :
    step (s.withPast past) = .next (t.withPast past) := by
  cases ht : s.turn with
  | reset c =>
    obtain rfl := Host.Outcome.next.inj (h.symm.trans (step_reset s c ht))
    exact step_reset (s.withPast past) c ht
  | wait =>
    obtain rfl := Host.Outcome.next.inj (h.symm.trans (step_wait s ht))
    exact step_wait (s.withPast past) ht
  | go =>
    cases hp : s.urr.phase with
    | idle =>
      cases hc : s.host.commands with
      | nil =>
        obtain rfl := Host.Outcome.next.inj (h.symm.trans (step_idle_none s ht hp hc))
        exact step_idle_none (s.withPast past) ht hp hc
      | cons w ws =>
        obtain rfl := Host.Outcome.next.inj (h.symm.trans (step_accept s ht hp hc))
        exact step_accept (s.withPast past) ht hp hc
    | fill =>
      obtain rfl := Host.Outcome.next.inj (h.symm.trans (step_fill s ht hp))
      rw [step_fill (s.withPast past) ht hp, ← fillStep_withPast]
      rfl
    | done =>
      obtain rfl := Host.Outcome.next.inj (h.symm.trans (step_done s ht hp))
      rw [step_done (s.withPast past) ht hp]
      simp [respondStep, State.withPast, State.endTurn]

/-- No run reads the responses HOST has taken. -/
theorem run_withPast {k : Nat} {s t : State} (past : List RspWord) (h : core.run k s = .next t) :
    core.run k (s.withPast past) = .next (t.withPast past) := by
  induction k generalizing s with
  | zero =>
    rw [run_zero] at h
    injection h with h
    rw [h, run_zero]
  | succ k ih =>
    obtain ⟨s', hs, hrun⟩ := run_succ_inv s t k h
    rw [run_succ _ _ k (step_withPast past hs), ih hrun]

/-- Settles O31: both machines are one machine without past responses, each with its own past. -/
theorem earlierCommandsDoNotMatter : Obligations.EarlierCommandsDoNotMatter := by
  intro s u t k hs hu hsp hup hsrc hsched hcmd h
  have hsame : u.forgetPast = s.forgetPast := by
    simp [State.forgetPast, hs.idle hsp, hu.idle hup, hsrc, hsched, hcmd]
  obtain ⟨t₀, hrun⟩ := run_next k s.forgetPast
  have hrunS := run_withPast s.host.responses hrun
  have hrunU := run_withPast u.host.responses (hsame ▸ hrun)
  rw [State.forgetPast_withPast] at hrunS hrunU
  obtain rfl := Host.Outcome.next.inj (h.symm.trans hrunS)
  exact ⟨t₀.host.responses, rfl, hrunU⟩

end Sys2Proof.Machine
end

section
/-! PROOFS. The command port and the fixed source (20_memory.md R32, R45). -/

namespace Sys2Proof.Machine

/-! The command word is sampled once, by ACCEPT (20_memory.md R45). -/

/-- ACCEPT of EXTRACT latches its command, whether it is valid or not (40_bit_extractor.md R74). -/
theorem acceptExtract_latches (a : Word) (u : Urr) :
    (acceptExtract a u).op = .extract ∧ (acceptExtract a u).arg = a := by
  cases h : extractValid a
  · simp [acceptExtract_of_invalid h]
  · simp [acceptExtract_of_valid h]

/-- ACCEPT of UNIFORM latches its command, whether it is valid or not (42_range_reducer.md R102). -/
theorem acceptUniform_latches (a : Word) (u : Urr) :
    (acceptUniform a u).op = .uniform ∧ (acceptUniform a u).arg = a := by
  cases h : uniformValid a
  · simp [acceptUniform_of_invalid h]
  · simp [acceptUniform_of_valid h]

/-- An ACCEPT step moves the presented word from HOST's list into OP and ARG. -/
theorem step_samples_presented_word {s t : State} {w : CmdWord} {ws : List CmdWord}
    (ht : s.turn = .go) (hp : s.urr.phase = .idle) (hc : s.host.commands = w :: ws)
    (h : step s = .next t) :
    t.urr.op.code = opField w ∧ t.urr.arg = argField w ∧ t.host.commands = ws := by
  obtain rfl := Host.Outcome.next.inj (h.symm.trans (step_accept s ht hp hc))
  rcases opField_cases w with hop | hop
  · obtain ⟨ho, ha⟩ := acceptExtract_latches (argField w) s.urr
    simp [hop, ho, ha, Op.code]
  · obtain ⟨ho, ha⟩ := acceptUniform_latches (argField w) s.urr
    simp [hop, ho, ha, Op.code]

/-- The state whose HOST has these words still to present. -/
def State.withCommands (words : List CmdWord) (s : State) : State :=
  { s with host := { s.host with commands := words } }

/-- BYTE does not read the words HOST presents. -/
theorem byteStep_withCommands (words : List CmdWord) (s : State) :
    byteStep (s.withCommands words) = (byteStep s).withCommands words := by
  rcases byteStep_cases s with ⟨ha, e⟩ | ⟨w, ha, hr, e⟩ | ⟨w, b, ha, hr, e⟩
  · rw [e, byteStep_of_no_answer (s.withCommands words) ha]
  · rw [e, byteStep_of_fail (s.withCommands words) ha hr]; rfl
  · rw [e, byteStep_of_byte (s.withCommands words) ha hr]; rfl

/-- A fill does not read the words HOST presents. -/
theorem fillStep_withCommands (words : List CmdWord) (f : Urr → Urr) (s : State) :
    fillStep f (s.withCommands words) = (fillStep f s).withCommands words := by
  rcases Nat.lt_trichotomy s.urr.cnt.toNat s.urr.need with hlt | heq | hgt
  · rw [fillStep_byte f s hlt, fillStep_byte f (s.withCommands words) hlt, byteStep_withCommands]
  · rw [fillStep_finish f s heq, fillStep_finish f (s.withCommands words) heq]; rfl
  · rw [fillStep_wait f s hgt, fillStep_wait f (s.withCommands words) hgt]

/-- No step of a busy block reads the words HOST presents (20_memory.md R45). -/
theorem step_busy_withCommands {s t : State} (words : List CmdWord) (hp : s.urr.phase ≠ .idle)
    (h : step s = .next t) : step (s.withCommands words) = .next (t.withCommands words) := by
  cases ht : s.turn with
  | reset c =>
    obtain rfl := Host.Outcome.next.inj (h.symm.trans (step_reset s c ht))
    exact step_reset (s.withCommands words) c ht
  | wait =>
    obtain rfl := Host.Outcome.next.inj (h.symm.trans (step_wait s ht))
    exact step_wait (s.withCommands words) ht
  | go =>
    cases hq : s.urr.phase with
    | idle => exact absurd hq hp
    | fill =>
      obtain rfl := Host.Outcome.next.inj (h.symm.trans (step_fill s ht hq))
      rw [step_fill (s.withCommands words) ht hq, ← fillStep_withCommands]
      rfl
    | done =>
      obtain rfl := Host.Outcome.next.inj (h.symm.trans (step_done s ht hq))
      exact step_done (s.withCommands words) ht hq

/-- A step of a busy block leaves HOST's words where they are, and the command in flight in OP and ARG
until the block is idle. -/
theorem step_busy_frame {s t : State} (hp : s.urr.phase ≠ .idle) (h : step s = .next t) :
    t.host.commands = s.host.commands ∧
      (t.urr.phase ≠ .idle → t.urr.op = s.urr.op ∧ t.urr.arg = s.urr.arg) := by
  rcases step_cases s t h with ⟨c, -, rfl⟩ | ⟨-, rfl⟩ | ⟨-, hidle, -⟩ | ⟨-, -, -, w, -, -, rfl⟩ |
    ⟨-, -, -, w, b, -, -, rfl⟩ | ⟨-, -, -, rfl⟩ | ⟨-, -, rfl⟩
  · simp
  · simp
  · exact absurd hidle hp
  · simp
  · simp
  · obtain ⟨ho, ha, -, -⟩ := finishOf_frame s.urr.op s.urr
    exact ⟨rfl, fun _ => ⟨ho, ha⟩⟩
  · simp

/-- Settles O12: ACCEPT latches the presented word, and no step of a busy block reads the port. -/
theorem commandIsSampledOnce : Obligations.CommandIsSampledOnce :=
  ⟨fun _ _ _ _ ht hp hc h => step_samples_presented_word ht hp hc h,
    fun _ _ other hp h => ⟨step_busy_withCommands other hp h, step_busy_frame hp h⟩⟩

/-! The fixed source (20_memory.md R32 item 2, 30_encoding.md R58). -/

/-- The reply word made from a byte is a `Byte` reply with that byte. -/
@[simp] theorem replyOf_byteWord (b : Byte) : replyOf (byteWord b) = .byte b := by
  have hfail : (byteWord b).getLsbD 8 = false := BitVec.getLsbD_append.trans rfl
  have hdata : (byteWord b).extractLsb' 0 8 = b := BitVec.extractLsb'_append_eq_right
  rw [replyOf_of_not_fail hfail, hdata]

/-- The word with `fail = 1` is a `Fail` reply. -/
@[simp] theorem replyOf_failWord : replyOf failWord = .fail :=
  replyOf_of_fail (by decide)

/-- After `k` requests a source answers with word `k` of its script, if there is one. -/
theorem Source.answer_consumeN_of_getElem? {o : Source} {k : Nat} {w : SrcrWord}
    (h : o.script[k]? = some w) : (o.consumeN k).answer = some w := by
  obtain ⟨hk, rfl⟩ := List.getElem?_eq_some_iff.mp h
  exact answer_cons _ _ _ (List.drop_eq_getElem_cons hk)

/-- After at least as many requests as its script has words, a fixed source answers with `Fail`. -/
theorem Source.answer_consumeN_of_fixed {o : Source} {k : Nat} (hk : o.kind = .fixed)
    (h : o.script.length ≤ k) : (o.consumeN k).answer = some failWord :=
  answer_fixed_nil _ (List.drop_eq_nil_of_le h) hk

/-- Settles O16: request `i` meets word `i` of the script, or its end. -/
theorem fixedSourceGivesItsListThenFails : Obligations.FixedSourceGivesItsListThenFails := by
  intro bs i
  cases hb : bs[i]? with
  | some b =>
    have hw : (Source.ofScript .fixed (bs.map byteWord)).script[i]? = some (byteWord b) := by
      simp [Source.ofScript, hb]
    simp [Source.answer_consumeN_of_getElem? hw]
  | none =>
    have hlen : (Source.ofScript .fixed (bs.map byteWord)).script.length ≤ i := by
      simpa [Source.ofScript] using hb
    simp [Source.answer_consumeN_of_fixed rfl hlen]

end Sys2Proof.Machine
end

section
/-! PROOFS. The CMD word of a command and the command of a CMD word (30_encoding.md R51 to R54, R60). -/

namespace Sys2Proof

/-! What the operand of a well-formed command is to the 64 bits of `arg`. -/

/-- R53: EXTRACT's operand is any unsigned 64-bit number. -/
@[simp] theorem Instr.wellFormed_extract_iff (n : Nat) : (Instr.extract n).WellFormed ↔ n < 2 ^ 64 := by
  simp [WellFormed, wellFormed]

/-- R54: UNIFORM's operand is any signed 64-bit number. -/
@[simp] theorem Instr.wellFormed_uniform_iff (N : Int) :
    (Instr.uniform N).WellFormed ↔ -(2 ^ 63) ≤ N ∧ N < 2 ^ 63 := by
  simp [WellFormed, wellFormed]

/-- `arg` of EXTRACT, read unsigned, is the operand. -/
theorem toNat_extractArg {n : Nat} (h : n < 2 ^ 64) : (extractArg n).toNat = n :=
  Machine.toNat_ofNat_of_lt h

/-- `arg` of UNIFORM, read as two's complement, is the operand. -/
theorem toInt_uniformArg {N : Int} (hlo : -(2 ^ 63) ≤ N) (hhi : N < 2 ^ 63) :
    (uniformArg N).toInt = N :=
  BitVec.toInt_ofInt_eq_self (by decide) hlo hhi

/-! The decoder, one equation per value of `op` (R52). -/

theorem decodeWord_of_op_zero {w : CmdWord} (h : opField w = 0#1) :
    decodeWord w = .extract (argField w).toNat := if_pos h

theorem decodeWord_of_op_one {w : CmdWord} (h : opField w = 1#1) :
    decodeWord w = .uniform (argField w).toInt := if_neg (by simp [h])

/-- Settles O1: each command's reading of `arg` undoes its writing. -/
theorem decodeOfEncodeIsTheCommand : Obligations.DecodeOfEncodeIsTheCommand := by
  intro i hi
  cases i with
  | extract n =>
    rw [Instr.wellFormed_extract_iff] at hi
    rw [encode, decodeWord_of_op_zero (opField_append _ _), argField_append, toNat_extractArg hi]
  | uniform N =>
    obtain ⟨hlo, hhi⟩ := (Instr.wellFormed_uniform_iff N).mp hi
    rw [encode, decodeWord_of_op_one (opField_append _ _), argField_append, toInt_uniformArg hlo hhi]

/-- Whatever a word holds as `arg` is an operand its command can have. -/
theorem decodeWord_wellFormed (w : CmdWord) : (decodeWord w).WellFormed := by
  rcases opField_cases w with h | h
  · rw [decodeWord_of_op_zero h, Instr.wellFormed_extract_iff]
    exact (argField w).isLt
  · rw [decodeWord_of_op_one h, Instr.wellFormed_uniform_iff]
    exact ⟨BitVec.le_toInt _, BitVec.toInt_lt⟩

/-- No bit of a word is lost by decoding it. -/
theorem encode_decodeWord (w : CmdWord) : encode (decodeWord w) = w := by
  rcases opField_cases w with h | h
  · rw [decodeWord_of_op_zero h, encode, Machine.extractArg_toNat, ← h, opField_append_argField]
  · rw [decodeWord_of_op_one h, encode, Machine.uniformArg_toInt, ← h, opField_append_argField]

/-- The number of a CMD word decodes as the word does. -/
theorem decodeBits_toNat (w : CmdWord) : decodeBits w.toNat = .ok (decodeWord w) := by
  rw [decodeBits, if_pos w.isLt, BitVec.ofNat_toNat, BitVec.setWidth_eq]

/-- Settles O2: decoding and encoding are inverse to each other, so no word has a second command. -/
theorem everyCmdWordIsExactlyOneCommand : Obligations.EveryCmdWordIsExactlyOneCommand := by
  intro w
  refine ⟨decodeWord_wellFormed w, encode_decodeWord w, ?_, opField_toNat w, argField_toNat w,
    decodeBits_toNat w⟩
  rintro i hi rfl
  exact (decodeOfEncodeIsTheCommand i hi).symm

/-- R52: the mask of the opcode map keeps `op`. -/
theorem opField_and_opMask (w : CmdWord) : opField (w &&& 0x10000000000000000#65) = opField w := by
  rw [opField, opField, BitVec.extractLsb'_and]
  exact BitVec.and_allOnes

/-- R54: `arg` as two's complement, from the number of the word. -/
theorem argField_toInt (w : CmdWord) :
    (argField w).toInt =
      if w.toNat % 2 ^ 64 < 2 ^ 63 then (w.toNat % 2 ^ 64 : Int)
      else (w.toNat % 2 ^ 64 : Int) - 2 ^ 64 := by
  rw [BitVec.toInt_eq_toNat_cond, argField_toNat]
  split <;> split <;> omega

/-- Settles O3: a match under the mask says what `op` is. -/
theorem opcodeMapSelectsTheCommand : Obligations.OpcodeMapSelectsTheCommand := by
  intro w
  refine ⟨fun h => ?_, fun h => ?_⟩
  · have hop : opField w = 0#1 := by rw [← opField_and_opMask, h]; rfl
    rw [decodeWord_of_op_zero hop, argField_toNat]
  · have hop : opField w = 1#1 := by rw [← opField_and_opMask, h]; rfl
    rw [decodeWord_of_op_one hop, argField_toInt]

/-- Settles O4: the decoder evaluated at the four numbers. -/
theorem specWordsDecode : Obligations.SpecWordsDecode :=
  ⟨by decide, by decide, by decide, by decide⟩

end Sys2Proof
end

section
/-! PROOFS. The reply word and the response word (30_encoding.md R55 to R58). -/

namespace Sys2Proof.Machine

/-- The `data` field of a reply word, from the number of the word. -/
theorem dataField_eq_ofNat (w : SrcrWord) : w.extractLsb' 0 8 = BitVec.ofNat 8 (w.toNat % 256) := by
  apply BitVec.eq_of_toNat_eq
  simp

/-- Settles O5: the two rules of a reply word, chosen by its bit 8. -/
theorem replyWordFormat : Obligations.ReplyWordFormat := by
  intro w
  cases h : w.getLsbD 8 with
  | true => exact replyOf_of_fail h
  | false => rw [replyOf_of_not_fail h, dataField_eq_ofNat]; rfl

/-- Bits 65:64 of the response word are STATUS (R55). -/
@[simp] theorem Urr.rsp_status (u : Urr) : u.rsp.extractLsb' 64 2 = u.status.code :=
  BitVec.extractLsb'_append_eq_left

/-- Bits 63:0 of the response word are RESULT (R55). -/
@[simp] theorem Urr.rsp_result (u : Urr) : u.rsp.extractLsb' 0 64 = u.result :=
  BitVec.extractLsb'_append_eq_right

/-- Settles O22: the word delivered is `{STATUS, RESULT}` of the registers before the step. -/
theorem responseIsDelivered : Obligations.ResponseIsDelivered :=
  fun s hp => ⟨s.urr.rsp, exec_inFlight_done s hp, s.urr.rsp_status, s.urr.rsp_result⟩

/-- R56: the code `0b11` is never produced. -/
theorem Status.code_ne_three (c : Status) : c.code ≠ 3#2 := by
  cases c <;> decide

/-- R56: `0b00` is the code of OK. -/
theorem Status.code_ok : Status.ok.code = 0#2 := rfl

/-- Only RESPOND delivers a word, and it is `{STATUS, RESULT}` of the registers in DONE. -/
theorem step_delivers_rsp {s t : State} (h : step s = .next t) :
    t.host.responses = s.host.responses ∨
      (s.urr.phase = .done ∧ t.host.responses = s.host.responses ++ [s.urr.rsp]) := by
  rcases step_cases s t h with ⟨c, -, rfl⟩ | ⟨-, rfl⟩ | ⟨-, -, w, ws, -, rfl⟩ |
    ⟨-, -, -, w, -, -, rfl⟩ | ⟨-, -, -, w, b, -, -, rfl⟩ | ⟨-, -, -, rfl⟩ | ⟨-, hp, rfl⟩
  · exact .inl rfl
  · exact .inl rfl
  · exact .inl rfl
  · exact .inl rfl
  · exact .inl rfl
  · exact .inl rfl
  · exact .inr ⟨hp, rfl⟩

/-- R57 in DONE: by R27 a response word with an error status has result 0. -/
theorem Urr.rsp_result_of_error {u : Urr} (hp : u.phase = .done) (hu : u.Inv)
    (h : u.rsp.extractLsb' 64 2 ≠ 0#2) : u.rsp.extractLsb' 0 64 = 0#64 := by
  obtain ⟨-, -, hresult, -⟩ := hu.done hp
  rw [rsp_result]
  refine hresult fun hok => h ?_
  rw [rsp_status, hok, Status.code_ok]

/-- Settles O24: the word delivered is that of registers in DONE, which meet R27. -/
theorem deliveredWordsAreWellFormed : Obligations.DeliveredWordsAreWellFormed := by
  intro s t hs h
  refine (step_delivers_rsp h).imp id fun ⟨hp, hr⟩ =>
    ⟨s.urr.rsp, hr, ?_, Urr.rsp_result_of_error hp hs⟩
  rw [Urr.rsp_status]
  exact s.urr.status.code_ne_three

end Sys2Proof.Machine
end

section
/-! PROOFS. `mask` and `assemble` as numbers and as bytes (40_bit_extractor.md R71, R72), and how many
values below a multiple of `N` leave one remainder (R80, 42_range_reducer.md R111). -/

namespace Sys2Proof.Machine

/-- Settles O34: `2^n - 1` has the bits below `n` set and no others. -/
theorem maskKeepsTheLowBits : Obligations.MaskKeepsTheLowBits := by
  refine ⟨fun n i hn _ => ?_, mask_toNat_of_le, by decide⟩
  rw [← BitVec.testBit_toNat, mask_toNat_of_le n hn, Nat.testBit_two_pow_sub_one]

/-- At most 8 bytes fit the 64 bits of BUF. -/
theorem assemble_toNat {bs : List Byte} (h : bs.length ≤ 8) : (assemble bs).toNat = assembleNat bs :=
  toNat_ofNat_of_lt ((assembleNat_lt bs).trans_le (Nat.pow_le_pow_right (by decide) (by omega)))

/-- R71: `assemble` as the sum it stands for. -/
theorem assembleNat_eq_sum (bs : List Byte) :
    assembleNat bs = ((List.range bs.length).map fun i => 2 ^ (8 * i) * (bs.getD i 0#8).toNat).sum := by
  induction bs with
  | nil => rfl
  | cons b bs ih =>
    have hshift : ∀ i c : Nat, 2 ^ (8 * (i + 1)) * c = 2 ^ 8 * (2 ^ (8 * i) * c) :=
      fun i c => by ring
    rw [assembleNat, ih, ← List.sum_map_mul_left, List.length_cons, List.range_succ_eq_map]
    simp [Function.comp_def, hshift]

/-- Digit `i` of `assemble` in base 256 is byte `i`. -/
theorem assembleNat_div_mod (bs : List Byte) (i : Nat) :
    assembleNat bs / 2 ^ (8 * i) % 2 ^ 8 = (bs.getD i 0#8).toNat := by
  induction bs generalizing i with
  | nil => simp [assembleNat]
  | cons b bs ih =>
    cases i with
    | zero =>
      have hb : b.toNat < 2 ^ 8 := b.isLt
      simp only [assembleNat, List.getD_cons_zero]
      omega
    | succ i =>
      have hb : b.toNat < 2 ^ 8 := b.isLt
      have hdiv : (b.toNat + 2 ^ 8 * assembleNat bs) / 2 ^ 8 = assembleNat bs := by omega
      rw [assembleNat, Nat.mul_succ, Nat.add_comm (8 * i), Nat.pow_add, ← Nat.div_div_eq_div_mul, hdiv,
        ih, List.getD_cons_succ]

/-- Byte `i` of `assemble bs` is byte `i` of `bs`, and 0 where `bs` has none. -/
theorem getByte_assemble {bs : List Byte} (h : bs.length ≤ 8) (i : Nat) :
    getByte (assemble bs) i = bs.getD i 0#8 := by
  apply BitVec.eq_of_toNat_eq
  rw [getByte, BitVec.extractLsb'_toNat, Nat.shiftRight_eq_div_pow, assemble_toNat h,
    assembleNat_div_mod]

/-- Writing byte `k` above `k` assembled bytes assembles `k + 1` bytes (R71, R75). -/
theorem setByte_assemble {bs : List Byte} (h : bs.length < 8) (b : Byte) :
    setByte (assemble bs) bs.length b = assemble (bs ++ [b]) := by
  have hlen : (bs ++ [b]).length ≤ 8 := by simpa using h
  refine eq_of_getByte_eq _ _ fun i hi => ?_
  rw [getByte_assemble hlen]
  rcases Nat.lt_trichotomy i bs.length with hlt | rfl | hgt
  · rw [getByte_setByte_other _ _ _ _ hlt.ne', getByte_assemble h.le,
      List.getD_append _ _ _ _ hlt]
  · simp [getByte_setByte_same _ _ _ hi]
  · rw [getByte_setByte_other _ _ _ _ hgt.ne, getByte_assemble h.le,
      List.getD_eq_default _ _ hgt.le, List.getD_eq_default _ _ (by simpa using hgt)]

/-- Writing a byte over a zero byte is OR with the byte shifted up (R75). -/
theorem setByte_eq_or {v : Word} {i : Nat} (h : getByte v i = 0#8) (b : Byte) :
    setByte v i b = v ||| (b.setWidth 64 <<< (8 * i)) := by
  apply BitVec.eq_of_getLsbD_eq
  intro k hk
  rw [setByte_getLsbD, BitVec.getLsbD_or, BitVec.getLsbD_shiftLeft, BitVec.getLsbD_setWidth]
  by_cases hin : 8 * i ≤ k ∧ k < 8 * i + 8
  · have hv := congrArg (fun c : Byte => c.getLsbD (k - 8 * i)) h
    rw [getByte_getLsbD, Nat.add_sub_cancel' hin.1] at hv
    have hv : v.getLsbD k = false := by simpa [show k - 8 * i < 8 by omega] using hv
    rw [hv, if_pos hin]
    simp [hk, hin, show k - 8 * i < 64 by omega]
  · rw [if_neg hin]
    by_cases hlt : k < 8 * i
    · simp [hk, hlt]
    · have hb : b.getLsbD (k - 8 * i) = false := BitVec.getLsbD_of_ge _ _ (by omega)
      simp [hk, hlt, hb]

/-- Below a multiple of `N`, every remainder is left equally often. -/
theorem card_filter_mod_eq {N x M : Nat} (hx : x < N) (hM : N ∣ M) :
    ((Finset.range M).filter fun r => r % N = x).card = M / N := by
  have h := Nat.count_modEq_card (r := N) (b := M) (by omega) x
  rw [Nat.count_eq_card_filter_range, Nat.mod_eq_zero_of_dvd hM] at h
  simpa [Nat.ModEq, Nat.mod_eq_of_lt hx] using h

end Sys2Proof.Machine
end

section
/-! PROOFS. The single steps of EXTRACT (40_bit_extractor.md R74 to R77, R80). -/

namespace Sys2Proof.Machine

/-- An idle block accepts EXTRACT (10_state.md R20). -/
theorem exec_extract_idle {s : State} (hp : s.urr.phase = .idle) (n : Nat) :
    exec (.extract n) s = .next { s with urr := acceptExtract (extractArg n) s.urr } := by
  rw [exec_extract, commandStep_idle _ _ _ _ _ hp]

/-- R74: which operands are accepted. -/
theorem extractValid_extractArg {n : Nat} (h : n < 2 ^ 64) :
    extractValid (extractArg n) = decide (n ≤ 64) := by
  rw [extractValid, toNat_extractArg h]

/-- R74: ACCEPT of a width up to 64. -/
theorem acceptExtract_of_le {n : Nat} (h : n ≤ 64) (u : Urr) :
    acceptExtract (extractArg n) u = (u.latch .extract (extractArg n)).startFill n 0 := by
  have hn : n < 2 ^ 64 := by omega
  rw [acceptExtract_of_valid (by simp [extractValid_extractArg hn, h]), toNat_extractArg hn]

/-- R74: ACCEPT of a larger width. -/
theorem acceptExtract_of_gt {n : Nat} (h : 64 < n) (hn : n < 2 ^ 64) (u : Urr) :
    acceptExtract (extractArg n) u = (u.latch .extract (extractArg n)).raise .invalidArgument :=
  acceptExtract_of_invalid (by simpa [extractValid_extractArg hn] using h) u

/-- Settles O10: the two outcomes of ACCEPT, register by register. -/
theorem extractIsAccepted : Obligations.ExtractIsAccepted := by
  intro s n hp
  rw [exec_extract_idle hp]
  refine ⟨fun h => ?_, fun h hn => ?_⟩
  · rw [acceptExtract_of_le h]; rfl
  · rw [acceptExtract_of_gt h hn]; rfl

/-- R75: a byte that arrives in a fill of either command. -/
theorem exec_inFlight_byte {s : State} {w : SrcrWord} {b : Byte} (hp : s.urr.phase = .fill)
    (hc : s.urr.cnt.toNat < s.urr.need) (ha : s.src.answer = some w) (hr : replyOf w = .byte b) :
    exec s.urr.inFlight s = .next { s with urr := s.urr.storeByte b, src := s.src.consume } := by
  rw [exec_inFlight_fill s hp, fillStep_byte _ s hc, byteStep_of_byte s ha hr]

/-- R75: a `Fail` that arrives in a fill of either command. -/
theorem exec_inFlight_fail {s : State} {w : SrcrWord} (hp : s.urr.phase = .fill)
    (hc : s.urr.cnt.toNat < s.urr.need) (ha : s.src.answer = some w) (hr : replyOf w = .fail) :
    exec s.urr.inFlight s =
      .next { s with urr := s.urr.raise .sourceError, src := s.src.consume } := by
  rw [exec_inFlight_fill s hp, fillStep_byte _ s hc, byteStep_of_fail s ha hr]

/-- CNT counts up as a number does, modulo 16. -/
theorem cnt_add_one (c : BitVec 4) : c + 1#4 = BitVec.ofNat 4 (c.toNat + 1) := by
  rw [BitVec.ofNat_add, BitVec.ofNat_toNat, BitVec.setWidth_eq]

/-- Settles O14: byte CNT is still 0 by R25, so writing it is an OR. -/
theorem sourceReplyIsTaken : Obligations.SourceReplyIsTaken := by
  intro s w hinv hp hc ha
  obtain ⟨-, -, -, -, hneed, hzero⟩ := hinv hp
  have hcnt : s.urr.cnt.toNat < 8 := hc.trans_le hneed
  refine ⟨fun hw => ⟨setByte s.urr.buf s.urr.cnt.toNat (w.extractLsb' 0 8), ?_, fun k hk => ?_,
    setByte_eq_or (hzero _ hcnt le_rfl) _⟩, fun hw => ?_⟩
  · rw [exec_inFlight_byte hp hc ha (replyOf_of_not_fail hw), ← cnt_add_one]
    rfl
  · split
    · next h => rw [h, getByte_setByte_same _ _ _ hcnt]
    · next h => rw [getByte_setByte_other _ _ _ _ (Ne.symm h)]
  · exact exec_inFlight_fail hp hc ha (replyOf_of_fail hw)

/-- R76, 42_range_reducer.md R105 to R107: a complete fill of either command is finished. -/
theorem exec_inFlight_finish {s : State} (hp : s.urr.phase = .fill)
    (hc : s.urr.cnt.toNat = s.urr.need) :
    exec s.urr.inFlight s = .next { s with urr := finishOf s.urr.op s.urr } := by
  rw [exec_inFlight_fill s hp, fillStep_finish _ s hc]

/-- R76: a complete EXTRACT fill is finished. -/
theorem exec_extract_finish {s : State} {n : Nat} (hp : s.urr.phase = .fill)
    (hs : s.urr.Serves (.extract n)) (hc : s.urr.cnt.toNat = s.urr.need) :
    exec (.extract n) s = .next { s with urr := finishExtract s.urr } := by
  obtain ⟨ho, -⟩ := id hs
  rw [exec_of_serves hs, exec_inFlight_finish hp hc, ho, finishOf]

/-- Settles O18: `finishExtract`, register by register. -/
theorem extractFinishes : Obligations.ExtractFinishes :=
  fun _ _ hp ho ha hc => exec_extract_finish hp ⟨ho, ha⟩ hc

/-- Settles O44: by R26 BITS is `n`, so the mask leaves the bits below `n`, all of them for `n = 64`. -/
theorem extractResultHasOnlyTheRequestedBits :
    Obligations.ExtractResultHasOnlyTheRequestedBits := by
  intro s n hn _ hop hp ho ha hc
  have hbits : s.urr.bits.toNat = n := by
    obtain ⟨-, hb, -⟩ := (hop hp).1 ho
    rw [hb, ha, toNat_ofNat_of_lt (by omega)]
  have hlt : s.urr.r.toNat < 2 ^ n := hbits ▸ Urr.r_toNat_lt (hbits ▸ hn)
  refine ⟨_, exec_extract_finish hp ⟨ho, ha⟩ hc, rfl, rfl, fun i hi => ?_, fun _ => hlt,
    fun h64 => ?_⟩
  · exact Nat.testBit_lt_two_pow (hlt.trans_le (Nat.pow_le_pow_right (by decide) hi))
  · show s.urr.r = s.urr.buf
    have hmask : mask 64 = BitVec.allOnes 64 := by decide
    rw [Urr.r, hbits, h64, hmask, BitVec.and_allOnes]

/-- R76: the result of FINISH as a number. -/
theorem finishExtract_result_toNat (u : Urr) {n : Nat} (hbits : u.bits.toNat = n) (hn : n ≤ 64) :
    (finishExtract u).result.toNat = u.buf.toNat % 2 ^ n :=
  hbits ▸ and_mask_toNat _ _ (hbits.trans_le hn)

/-- Settles O43: the result is the remainder modulo `2^n`, and `2^n` divides `2^(8k)`. -/
theorem extractFinishIsUnbiased : Obligations.ExtractFinishIsUnbiased := by
  intro u n x hn hbits hx
  have hle : n ≤ 8 * needBytes n := by unfold needBytes; omega
  have hresult : ∀ v,
      (finishExtract { u with buf := BitVec.ofNat 64 v }).result.toNat = v % 2 ^ n := by
    intro v
    rw [finishExtract_result_toNat { u with buf := BitVec.ofNat 64 v } hbits hn, BitVec.toNat_ofNat,
      Nat.mod_mod_of_dvd _ (Nat.pow_dvd_pow 2 hn)]
  simp only [hresult]
  rw [card_filter_mod_eq hx (Nat.pow_dvd_pow 2 hle), Nat.pow_div hle (by decide)]

end Sys2Proof.Machine
end

section
/-! PROOFS. Fills in steps (40_bit_extractor.md R71, 20_memory.md R33, R39), for either command: the
ways a fill can end on the source's replies, and the run of BYTE steps that takes the bytes. The
schedule is empty, so every enabled step happens (notes/assumptions/1.md). -/

namespace Sys2Proof.Machine

/-- A fill on a list of replies gets all its bytes, or meets a `Fail` after too few, or too few come. -/
theorem fillOf_cases (k : Nat) (ρ : List Reply) :
    (∃ (bs : List Byte) (ρ' : List Reply), ρ = bs.map .byte ++ ρ' ∧ bs.length = k ∧
        fillOf k ρ = .full bs) ∨
      (∃ (bs : List Byte) (ρ' : List Reply), ρ = bs.map .byte ++ .fail :: ρ' ∧ bs.length < k ∧
        fillOf k ρ = .failed bs.length) ∨
      (∃ bs : List Byte, ρ = bs.map .byte ∧ bs.length < k ∧ fillOf k ρ = .pending) := by
  induction k generalizing ρ with
  | zero => exact .inl ⟨[], ρ, rfl, rfl, rfl⟩
  | succ k ih =>
    cases ρ with
    | nil => exact .inr (.inr ⟨[], rfl, k.succ_pos, rfl⟩)
    | cons r ρ =>
      cases r with
      | fail => exact .inr (.inl ⟨[], ρ, rfl, k.succ_pos, rfl⟩)
      | byte b =>
        rcases ih ρ with ⟨bs, ρ', rfl, hlen, e⟩ | ⟨bs, ρ', rfl, hlen, e⟩ | ⟨bs, rfl, hlen, e⟩
        · exact .inl ⟨b :: bs, ρ', rfl, congrArg _ hlen, by simp [fillOf, e]⟩
        · exact .inr (.inl ⟨b :: bs, ρ', rfl, Nat.succ_lt_succ hlen, by simp [fillOf, e]⟩)
        · exact .inr (.inr ⟨b :: bs, rfl, Nat.succ_lt_succ hlen, by simp [fillOf, e]⟩)

/-! The source, by the replies its script stands for. -/

/-- Consuming `k` replies and then one is consuming `k + 1`. -/
theorem Source.consume_consumeN (k : Nat) (o : Source) :
    (o.consumeN k).consume = o.consumeN (k + 1) := by
  simp [consume, consumeN, Nat.add_assoc]

/-- After the replies before it, a reply of the script is given. -/
theorem Source.answer_consumeN_of_replies {o : Source} {before after : List Reply} {r : Reply}
    (h : o.script.map replyOf = before ++ r :: after) :
    ∃ w, (o.consumeN before.length).answer = some w ∧ replyOf w = r := by
  have hr : (o.script.map replyOf)[before.length]? = some r := by simp [h]
  rw [List.getElem?_map, Option.map_eq_some_iff] at hr
  obtain ⟨w, hw, hr⟩ := hr
  exact ⟨w, answer_consumeN_of_getElem? hw, hr⟩

/-- A script made of bytes stands for these bytes (30_encoding.md R58). -/
theorem map_replyOf_bytes (bs : List Byte) (rest : List SrcrWord) :
    (bs.map byteWord ++ rest).map replyOf = bs.map .byte ++ rest.map replyOf := by
  simp [Function.comp_def]

/-- Once its bytes are consumed, such a script is at its rest. -/
theorem Source.consumeN_of_bytes {o : Source} {bs : List Byte} {rest : List SrcrWord}
    (h : o.script = bs.map byteWord ++ rest) :
    o.consumeN bs.length = { o with script := rest, served := o.served + bs.length } := by
  have hdrop : (bs.map byteWord ++ rest).drop bs.length = rest := List.drop_left' (by simp)
  rw [consumeN, h, hdrop]

/-! Steps and runs with an empty schedule. -/

theorem State.turn_of_schedule_nil {s : State} (h : s.schedule = []) : s.turn = .go := by
  simp [turn, h]

theorem State.endTurn_of_schedule_nil {s : State} (h : s.schedule = []) : s.endTurn = s := by
  rw [endTurn, h, List.tail_nil, ← h]

/-- A busy block runs the command in flight. -/
theorem step_busy_of_schedule_nil {s : State} (h : s.schedule = []) (hp : s.urr.phase ≠ .idle) :
    step s = exec s.urr.inFlight s := by
  rw [step_busy (State.turn_of_schedule_nil h) hp, State.endTurn_of_schedule_nil h]

/-- A byte that arrives (R75). -/
theorem step_byte {s : State} {w : SrcrWord} {b : Byte} (h : s.schedule = [])
    (hp : s.urr.phase = .fill) (hc : s.urr.cnt.toNat < s.urr.need) (ha : s.src.answer = some w)
    (hr : replyOf w = .byte b) :
    step s = .next { s with urr := s.urr.storeByte b, src := s.src.consume } := by
  rw [step_busy_of_schedule_nil h (by simp [hp]), exec_inFlight_byte hp hc ha hr]

/-- A `Fail` that arrives (R75). -/
theorem step_fail {s : State} {w : SrcrWord} (h : s.schedule = [])
    (hp : s.urr.phase = .fill) (hc : s.urr.cnt.toNat < s.urr.need) (ha : s.src.answer = some w)
    (hr : replyOf w = .fail) :
    step s = .next { s with urr := s.urr.raise .sourceError, src := s.src.consume } := by
  rw [step_busy_of_schedule_nil h (by simp [hp]), exec_inFlight_fail hp hc ha hr]

/-- A complete fill is finished (R76, 42_range_reducer.md R105 to R107). -/
theorem step_finish {s : State} (h : s.schedule = []) (hp : s.urr.phase = .fill)
    (hc : s.urr.cnt.toNat = s.urr.need) :
    step s = .next { s with urr := finishOf s.urr.op s.urr } := by
  rw [step_busy_of_schedule_nil h (by simp [hp]), exec_inFlight_finish hp hc]

/-- A response is delivered (10_state.md R22). -/
theorem step_respond {s : State} (h : s.schedule = []) (hp : s.urr.phase = .done) :
    step s = .next (respondStep s) := by
  rw [step_busy_of_schedule_nil h (by simp [hp]), exec_inFlight_done s hp]

/-- A run of one step. -/
theorem run_one {s t : State} (h : step s = .next t) : core.run 1 s = .next t :=
  run_succ s t 0 h

/-- A run and one step more. -/
theorem run_then_step {s t t' : State} {k : Nat} (h : core.run k s = .next t)
    (h' : step t = .next t') : core.run (k + 1) s = .next t' :=
  (run_add s t k 1 h).trans (run_one h')

/-! The registers and the run of a fill. -/

/-- The registers of a fill after these bytes. -/
def Urr.withBytes (bs : List Byte) (u : Urr) : Urr :=
  { u with buf := assemble bs, cnt := BitVec.ofNat 4 bs.length }

@[simp] theorem Urr.withBytes_need (bs : List Byte) (u : Urr) : (u.withBytes bs).need = u.need := rfl

theorem Urr.withBytes_cnt_toNat {bs : List Byte} (h : bs.length ≤ 8) (u : Urr) :
    (u.withBytes bs).cnt.toNat = bs.length :=
  toNat_ofNat_of_lt (by omega)

/-- No bytes have come. -/
theorem Urr.withBytes_nil {u : Urr} (hbuf : u.buf = 0#64) (hcnt : u.cnt = 0#4) :
    u.withBytes [] = u := by
  rw [withBytes, List.length_nil, show assemble [] = u.buf from hbuf.symm,
    show BitVec.ofNat 4 0 = u.cnt from hcnt.symm]

/-- One more byte comes (R75). -/
theorem Urr.storeByte_withBytes {bs : List Byte} (h : bs.length < 8) (b : Byte) (u : Urr) :
    (u.withBytes bs).storeByte b = u.withBytes (bs ++ [b]) := by
  rw [storeByte, withBytes_cnt_toNat h.le, cnt_add_one, withBytes_cnt_toNat h.le, withBytes,
    setByte_assemble h, withBytes, List.length_append, List.length_singleton]

/-- The block at the start of a fill, where every enabled step happens. -/
structure State.AtFillStart (s : State) : Prop where
  schedule : s.schedule = []
  phase    : s.urr.phase = .fill
  buf      : s.urr.buf = 0#64
  cnt      : s.urr.cnt = 0#4

/-- One BYTE step for each byte that the source gives takes them all. -/
theorem run_bytes {s : State} (hs : s.AtFillStart) {bs : List Byte} {ρ : List Reply}
    (hneed : bs.length ≤ s.urr.need) (h8 : bs.length ≤ 8)
    (hscript : s.src.script.map replyOf = bs.map .byte ++ ρ) :
    core.run bs.length s =
      .next { s with urr := s.urr.withBytes bs, src := s.src.consumeN bs.length } := by
  induction bs using List.reverseRecOn generalizing ρ with
  | nil =>
    rw [Urr.withBytes_nil hs.buf hs.cnt, List.length_nil, Source.consumeN_zero, run_zero]
  | append_singleton bs b ih =>
    rw [List.length_append, List.length_singleton] at hneed h8 ⊢
    have hscript' : s.src.script.map replyOf = bs.map .byte ++ .byte b :: ρ := by simpa using hscript
    obtain ⟨w, ha, hr⟩ := Source.answer_consumeN_of_replies hscript'
    rw [List.length_map] at ha
    have hcnt : (s.urr.withBytes bs).cnt.toNat = bs.length := Urr.withBytes_cnt_toNat (by omega) _
    have hstep := step_byte
      (s := { s with urr := s.urr.withBytes bs, src := s.src.consumeN bs.length })
      hs.schedule hs.phase (hcnt.trans_lt hneed) ha hr
    rw [Urr.storeByte_withBytes (by omega), Source.consume_consumeN] at hstep
    exact run_then_step (ih (by omega) (by omega) hscript') hstep

/-- Settles O35: the sum, its bound, and the run of BYTE steps. -/
theorem bufHoldsTheAssembledBytes : Obligations.BufHoldsTheAssembledBytes := by
  intro bs rest s h8
  rw [assemble_toNat h8]
  refine ⟨assembleNat_eq_sum bs, assembleNat_lt bs, fun hp hbuf hcnt hneed hsch hscript => ?_⟩
  have hreplies := (congrArg (List.map replyOf) hscript).trans (map_replyOf_bytes bs rest)
  rw [run_bytes ⟨hsch, hp, hbuf, hcnt⟩ hneed h8 hreplies, Source.consumeN_of_bytes hscript]
  rfl

end Sys2Proof.Machine
end

section
/-! PROOFS. EXTRACT from ACCEPT to RESPOND (40_bit_extractor.md R73). A command presented to the idle
block goes through states that differ from the first one in the registers, the replies consumed and
HOST's lists only; the schedule is empty, so every enabled step happens (notes/assumptions/1.md). -/

namespace Sys2Proof.Machine

/-! A presented command, accepted and answered. -/

/-- An idle block, HOST presenting `i` and then `later`, where every enabled step happens. -/
structure State.Presents (s : State) (i : Instr) (later : List CmdWord) : Prop where
  urr      : s.urr = Urr.zero
  commands : s.host.commands = encode i :: later
  schedule : s.schedule = []

/-- The state with the presented command accepted, these registers and `used` replies consumed. -/
def State.serving (later : List CmdWord) (u : Urr) (used : Nat) (s : State) : State :=
  { s with urr := u, host := { s.host with commands := later }, src := s.src.consumeN used }

/-- The state with the presented command answered by `p` after `used` replies. -/
def State.answered (later : List CmdWord) (p : Response) (used : Nat) (s : State) : State :=
  { s with
    host := { commands := later, responses := s.host.responses ++ [p.word] }
    src := s.src.consumeN used }

/-- A presented command runs, taken from HOST's list (10_state.md R20). -/
theorem step_presented {s : State} {i : Instr} {later : List CmdWord} (h : s.Presents i later)
    (hi : i.WellFormed) :
    step s = exec i { s with host := { s.host with commands := later } } := by
  rw [stepRunsThePresentedCommand s _ _ i (State.turn_of_schedule_nil h.schedule) (by simp [h.urr])
    h.commands (decodeOfEncodeIsTheCommand i hi) hi, h.schedule, List.tail_nil, ← h.schedule]

/-- A served command in DONE is answered with `{STATUS, RESULT}` (10_state.md R22). -/
theorem step_serving_done {s : State} {i : Instr} {later : List CmdWord} {u : Urr} {used : Nat}
    {p : Response} (h : s.Presents i later) (hu : u.phase = .done) (hp : u.rsp = p.word) :
    step (s.serving later u used) = .next (s.answered later p used) := by
  rw [step_respond (s := s.serving later u used) h.schedule hu, State.answered, ← hp]
  simp [respondStep, State.serving, ← h.urr]

/-! EXTRACT: ACCEPT and the bytes that come. -/

/-- The registers at the start of the fill of EXTRACT `n` (R74). -/
def extractFill (n : Nat) : Urr := (Urr.zero.latch .extract (extractArg n)).startFill n 0

/-- A width of at most 64 bits needs at most 8 bytes (R70). -/
theorem needBytes_le_eight {n : Nat} (hn : n ≤ 64) : needBytes n ≤ 8 := by
  unfold needBytes
  omega

theorem extractFill_need {n : Nat} (hn : n ≤ 64) : (extractFill n).need = needBytes n := by
  rw [Urr.need, needBytes, show (extractFill n).bits.toNat = n from toNat_ofNat_of_lt (by omega)]

/-- ACCEPT of EXTRACT. -/
theorem step_presented_extract {s : State} {n : Nat} {later : List CmdWord}
    (h : s.Presents (.extract n) later) (hn : n < 2 ^ 64) :
    step s = .next (s.serving later (acceptExtract (extractArg n) Urr.zero) 0) := by
  rw [step_presented h ((Instr.wellFormed_extract_iff n).mpr hn), exec_extract_idle (by simp [h.urr])]
  simp [State.serving, h.urr]

/-- While bytes are missing a request is outstanding (20_memory.md R31). -/
theorem extractFill_srcRequest {n : Nat} {bs : List Byte} (hn : n ≤ 64)
    (hlen : bs.length < needBytes n) : ((extractFill n).withBytes bs).srcRequest = true := by
  have h8 : bs.length ≤ 8 := hlen.le.trans (needBytes_le_eight hn)
  rw [Urr.srcRequest_iff, Urr.withBytes_cnt_toNat h8, Urr.withBytes_need, extractFill_need hn]
  exact ⟨rfl, hlen⟩

section
variable {s : State} {n : Nat} {later : List CmdWord} {bs : List Byte} {ρ : List Reply}

/-- ACCEPT and one BYTE step for each byte that comes. -/
theorem run_extract_bytes (h : s.Presents (.extract n) later) (hn : n ≤ 64)
    (hlen : bs.length ≤ needBytes n) (hscript : s.src.script.map replyOf = bs.map .byte ++ ρ) :
    core.run (1 + bs.length) s =
      .next (s.serving later ((extractFill n).withBytes bs) bs.length) := by
  have haccept : step s = .next (s.serving later (extractFill n) 0) := by
    rw [step_presented_extract h (by omega), acceptExtract_of_le hn, extractFill]
  have hstart : (s.serving later (extractFill n) 0).AtFillStart := ⟨h.schedule, rfl, rfl, rfl⟩
  have h8 : bs.length ≤ 8 := hlen.trans (needBytes_le_eight hn)
  have hbytes := run_bytes hstart (hlen.trans_eq (extractFill_need hn).symm) h8
    (ρ := ρ) (by simpa [State.serving] using hscript)
  rw [run_add s _ 1 _ (run_one haccept), hbytes]
  simp [State.serving]

/-- All bytes come: they are assembled and masked. -/
theorem run_extract_full (h : s.Presents (.extract n) later) (hn : n ≤ 64)
    (hlen : bs.length = needBytes n) (hscript : s.src.script.map replyOf = bs.map .byte ++ ρ) :
    core.run (1 + bs.length + 1 + 1) s =
      .next (s.answered later { status := .ok, result := assemble bs &&& mask n } bs.length) := by
  have h8 : bs.length ≤ 8 := hlen.trans_le (needBytes_le_eight hn)
  have hbits : ((extractFill n).withBytes bs).bits.toNat = n := toNat_ofNat_of_lt (by omega)
  have hcnt : ((extractFill n).withBytes bs).cnt.toNat = ((extractFill n).withBytes bs).need := by
    rw [Urr.withBytes_cnt_toNat h8, Urr.withBytes_need, extractFill_need hn, hlen]
  have hfinish := step_finish
    (s := s.serving later ((extractFill n).withBytes bs) bs.length) h.schedule rfl hcnt
  refine run_then_step (run_then_step (run_extract_bytes h hn hlen.le hscript) hfinish)
    (step_serving_done h rfl ?_)
  show Status.ok.code ++ ((extractFill n).withBytes bs).r = _
  rw [Urr.r, hbits]
  rfl

/-- A `Fail` comes first: the bytes before it are lost. -/
theorem run_extract_failed (h : s.Presents (.extract n) later) (hn : n ≤ 64)
    (hlen : bs.length < needBytes n)
    (hscript : s.src.script.map replyOf = bs.map .byte ++ .fail :: ρ) :
    core.run (1 + bs.length + 1 + 1) s =
      .next (s.answered later (.error .sourceError) (bs.length + 1)) := by
  obtain ⟨w, ha, hr⟩ := Source.answer_consumeN_of_replies hscript
  rw [List.length_map] at ha
  obtain ⟨hp, hcnt⟩ := (Urr.srcRequest_iff _).mp (extractFill_srcRequest hn hlen)
  have hfail := step_fail (s := s.serving later ((extractFill n).withBytes bs) bs.length)
    h.schedule hp hcnt ha hr
  have hserving : step (s.serving later ((extractFill n).withBytes bs) bs.length) =
      .next (s.serving later (((extractFill n).withBytes bs).raise .sourceError) (bs.length + 1)) := by
    rw [hfail, State.serving, State.serving, Source.consume_consumeN]
  exact run_then_step (run_then_step (run_extract_bytes h hn hlen.le hscript) hserving)
    (step_serving_done h rfl rfl)

/-- An invalid width is answered at once. -/
theorem run_extract_invalid (h : s.Presents (.extract n) later) (hn : n < 2 ^ 64) (hgt : 64 < n) :
    core.run 2 s = .next (s.answered later (.error .invalidArgument) 0) := by
  have haccept := step_presented_extract h hn
  rw [acceptExtract_of_gt hgt hn] at haccept
  exact run_then_step (run_one haccept) (step_serving_done h rfl rfl)

end

/-- Settles O46: an invalid width, or one of the three ways a fill can end. -/
theorem extractMatchesItsReplyFunction : Obligations.ExtractMatchesItsReplyFunction := by
  intro s n later hn hurr hcommands hschedule
  have h : s.Presents (.extract n) later := ⟨hurr, hcommands, hschedule⟩
  by_cases hgt : 64 < n
  · rw [extractReplies, if_pos hgt]
    exact ⟨_, run_extract_invalid h hn hgt⟩
  · have hle : n ≤ 64 := Nat.le_of_not_lt hgt
    rcases fillOf_cases (needBytes n) (s.src.script.map replyOf) with
      ⟨bs, ρ, hρ, hlen, e⟩ | ⟨bs, ρ, hρ, hlen, e⟩ | ⟨bs, hρ, hlen, e⟩ <;>
      rw [extractReplies, if_neg hgt, e]
    · exact ⟨_, hlen ▸ run_extract_full h hle hlen hρ⟩
    · exact ⟨_, run_extract_failed h hle hlen hρ⟩
    · have hall : bs.length = s.src.script.length := by simpa using (congrArg List.length hρ).symm
      exact ⟨_, _, run_extract_bytes h hle hlen.le (ρ := []) (by simpa using hρ),
        extractFill_srcRequest hle hlen, hall ▸ rfl, rfl⟩

/-- Settles O48: the run of a fill whose bytes all come. -/
theorem extractRunsToItsResponse : Obligations.ExtractRunsToItsResponse := by
  intro s n later bs rest hn hlen hurr hcommands hschedule hscript
  have hreplies := (congrArg (List.map replyOf) hscript).trans (map_replyOf_bytes bs rest)
  have hrun := run_extract_full ⟨hurr, hcommands, hschedule⟩ hn hlen hreplies
  rw [State.answered, Source.consumeN_of_bytes hscript] at hrun
  rw [show bs.length + 3 = 1 + bs.length + 1 + 1 by omega]
  exact hrun

end Sys2Proof.Machine
end

section
/-! PROOFS. `minBytes`, all of it from `minBytes_le_iff`: `minBytes v ≤ k` says that `v` fits `k` bytes
(41_min_bytes.md R90, R93). -/

namespace Sys2Proof.Machine

/-- The model's `bitlength` is Mathlib's `Nat.size`: both count the bits a number fits. -/
theorem bitlength_eq_size (v : Nat) : bitlength v = Nat.size v :=
  eq_of_forall_ge_iff fun k => (bitlength_le_iff v k).trans Nat.size_le.symm

/-- A byte of a word as a number: the quotient by the weight of the byte, reduced to 8 bits. -/
theorem getByte_toNat (v : Word) (i : Nat) : (getByte v i).toNat = v.toNat / 2 ^ (8 * i) % 2 ^ 8 := by
  rw [getByte, BitVec.extractLsb'_toNat, Nat.shiftRight_eq_div_pow]

/-- Only 0 needs no byte (41_min_bytes.md R90). -/
theorem minBytes_eq_zero_iff (v : Word) : minBytes v = 0 ↔ v = 0#64 := by
  rw [← Nat.le_zero, minBytes_le_iff, Nat.mul_zero, Nat.pow_zero, Nat.lt_one_iff, BitVec.toNat_eq,
    BitVec.toNat_ofNat, Nat.zero_mod]

/-- Byte `i` of a word that fits `i + 1` bytes is the topmost byte it can use, so it is zero exactly
when the word fits `i` bytes (41_min_bytes.md R90). -/
theorem getByte_eq_zero_iff {v : Word} {i : Nat} (h : minBytes v ≤ i + 1) :
    getByte v i = 0#8 ↔ minBytes v ≤ i := by
  have hquot : v.toNat / 2 ^ (8 * i) < 2 ^ 8 := by
    rw [minBytes_le_iff, Nat.mul_succ, Nat.pow_add] at h
    exact Nat.div_lt_of_lt_mul h
  calc getByte v i = 0#8
      ↔ (getByte v i).toNat = 0 := BitVec.toNat_eq
    _ ↔ v.toNat / 2 ^ (8 * i) = 0 := by rw [getByte_toNat, Nat.mod_eq_of_lt hquot]
    _ ↔ v.toNat < 2 ^ (8 * i) := Nat.div_eq_zero_iff_lt (Nat.two_pow_pos _)
    _ ↔ minBytes v ≤ i := (minBytes_le_iff v i).symm

/-- A larger word needs no fewer bytes (41_min_bytes.md R93). -/
theorem minBytes_mono {v w : Word} (h : v.toNat ≤ w.toNat) : minBytes v ≤ minBytes w :=
  (minBytes_le_iff v _).mpr (h.trans_lt ((minBytes_le_iff w _).mp le_rfl))

/-- Settles O36: the least byte count by `minBytes_le_iff`, the topmost byte by `getByte_eq_zero_iff`. -/
theorem minBytesIsTheLeastByteCount : Obligations.MinBytesIsTheLeastByteCount := by
  intro v
  refine ⟨?formula, (minBytes_eq_zero_iff v).mpr, minBytes_le_eight v,
    (minBytes_le_iff v _).mp le_rfl, fun k => (minBytes_le_iff v k).mpr, ?topByte,
    fun i _ hi => (getByte_eq_zero_iff (Nat.le_succ_of_le hi)).mpr hi⟩
  case formula => rw [minBytes, bitlength_eq_size]
  case topByte =>
    intro hv
    have hpos : 1 ≤ minBytes v := Nat.one_le_iff_ne_zero.mpr (mt (minBytes_eq_zero_iff v).mp hv)
    refine ⟨hpos, fun hzero => ?_⟩
    have hle := (getByte_eq_zero_iff (by omega)).mp hzero
    omega

/-- Settles O37: a word needs the eighth byte exactly when it does not fit seven. -/
theorem minBytesIsMonotone : Obligations.MinBytesIsMonotone := by
  refine ⟨fun _ _ => minBytes_mono, fun v => ?_⟩
  have hseven : minBytes v ≤ 7 ↔ v.toNat < 2 ^ 56 := minBytes_le_iff v 7
  have hmax := minBytes_le_eight v
  omega

end Sys2Proof.Machine
end

section
/-! PROOFS. The arithmetic of the range reducer: the width of a draw, the limit and the counts behind
uniformity (42_range_reducer.md R100, R103, R108, R109, R111). -/

namespace Sys2Proof.Machine

/-! The width `bitsFor` (R108). -/

/-- `bitsFor N` is a whole number of bytes. -/
theorem eight_dvd_bitsFor (a : Word) : 8 ∣ bitsFor a := Dvd.intro _ rfl

/-- `k` bytes are wide enough for a draw exactly when `2^(8k)` reaches `N`. -/
theorem bitsFor_le_iff {a : Word} (ha : 1 ≤ a.toNat) (k : Nat) :
    bitsFor a ≤ 8 * k ↔ a.toNat ≤ 2 ^ (8 * k) := by
  have h := minBytes_le_iff (a - 1#64) k
  rw [toNat_sub_one a ha] at h
  unfold bitsFor
  omega

/-- Only `N = 1` needs no byte. -/
theorem bitsFor_eq_zero_iff {a : Word} (ha : 1 ≤ a.toNat) : bitsFor a = 0 ↔ a.toNat = 1 := by
  have h := bitsFor_le_iff ha 0
  simp only [Nat.mul_zero, Nat.pow_zero] at h
  omega

/-- One byte less would not reach `N`. -/
theorem Mof_div_lt {a : Word} (ha : 1 ≤ a.toNat) (h : 8 ≤ bitsFor a) : Mof a / 256 < a.toNat := by
  obtain ⟨k, hk⟩ : ∃ k, bitsFor a = 8 * k + 8 := by
    have := eight_dvd_bitsFor a
    exact ⟨bitsFor a / 8 - 1, by omega⟩
  have hM : Mof a / 256 = 2 ^ (8 * k) := by
    rw [Mof, hk, Nat.pow_add]
    exact Nat.mul_div_cancel _ (by decide)
  rw [hM, ← Nat.not_le, ← bitsFor_le_iff ha]
  omega

/-- 1 and 2 are powers of two. -/
theorem three_le_of_not_isPow2 {a : Word} (ha : 1 ≤ a.toNat) (hpow : isPow2 a = false) :
    3 ≤ a.toNat := by
  have hone : a.toNat ≠ 2 ^ 0 := fun h => by simp [isPow2_of_toNat_eq_two_pow h] at hpow
  have htwo : a.toNat ≠ 2 ^ 1 := fun h => by simp [isPow2_of_toNat_eq_two_pow h] at hpow
  omega

/-- On the general path a draw takes at least one byte. -/
theorem eight_le_bitsFor {a : Word} (ha : 1 ≤ a.toNat) (hpow : isPow2 a = false) :
    8 ≤ bitsFor a := by
  have hthree := three_le_of_not_isPow2 ha hpow
  have hzero := bitsFor_eq_zero_iff ha
  have hdvd := eight_dvd_bitsFor a
  omega

/-- Settles O38: all of it from `bitsFor_le_iff`. -/
theorem bitsForIsTheLeastWidth : Obligations.BitsForIsTheLeastWidth := by
  intro a ha _
  refine ⟨eight_dvd_bitsFor a, le_Mof a ha, ?least, Mof_div_lt ha, bitsFor_eq_zero_iff ha,
    fun hpow => ⟨three_le_of_not_isPow2 ha hpow, eight_le_bitsFor ha hpow⟩, ?widest⟩
  case least =>
    rintro b ⟨k, rfl⟩ hle
    exact (bitsFor_le_iff ha k).mpr hle
  case widest =>
    have hseven := bitsFor_le_iff ha 7
    have hmax := bitsFor_le a
    have hdvd := eight_dvd_bitsFor a
    omega

/-! The limit (R103, R109). -/

/-- The limit is `N` times the whole number of times that `N` goes into `M`. -/
theorem limitFor_eq_div_mul (a : Word) : limitFor a = Mof a / a.toNat * a.toNat :=
  Nat.div_mul_self_eq_mod_sub_self.symm

/-- The limit is a multiple of `N`. -/
theorem dvd_limitFor (a : Word) : a.toNat ∣ limitFor a := Nat.dvd_sub_mod _

/-- No larger multiple of `N` is at most `M`. -/
theorem le_limitFor {a : Word} {m : Nat} (hdvd : a.toNat ∣ m) (hle : m ≤ Mof a) :
    m ≤ limitFor a := by
  rw [limitFor_eq_div_mul, ← Nat.div_mul_cancel hdvd]
  exact Nat.mul_le_mul_right _ (Nat.div_le_div_right hle)

/-- The document's formula on unbounded integers. -/
theorem limitFor_eq_sub_sub_mod {a : Word} (ha : 1 ≤ a.toNat) :
    limitFor a = Mof a - (Mof a - a.toNat) % a.toNat := by
  rw [limitFor, Nat.mod_eq_sub_mod (le_Mof a ha)]

/-- The document's formula on 64 bits: nothing in it but `M` itself can wrap. -/
theorem ofNat_limitFor {a : Word} (ha : 1 ≤ a.toNat) :
    BitVec.ofNat 64 (limitFor a) =
      BitVec.ofNat 64 (Mof a) - (BitVec.ofNat 64 (Mof a) - a) % a := by
  have hle := le_Mof a ha
  have hM := Mof_le a
  have hmod : (Mof a - a.toNat) % a.toNat < a.toNat := Nat.mod_lt _ ha
  have hsub : BitVec.ofNat 64 (Mof a) - a = BitVec.ofNat 64 (Mof a - a.toNat) := by
    rw [← BitVec.ofNat_sub_ofNat_of_le _ _ a.isLt hle, BitVec.ofNat_toNat, BitVec.setWidth_eq]
  rw [hsub, BitVec.umod_def, toNat_ofNat_of_lt (by omega), limitFor_eq_sub_sub_mod ha,
    BitVec.ofNat_sub_ofNat_of_le _ _ (hmod.trans a.isLt) (hmod.le.trans hle)]

/-- Settles O39: each formula has its own lemma above. -/
theorem limitFormulasAgree : Obligations.LimitFormulasAgree :=
  fun a ha _ _ => ⟨rfl, limitFor_eq_sub_sub_mod ha, ofNat_limitFor ha, dvd_limitFor a,
    Nat.sub_le _ _, fun _ => le_limitFor⟩

/-- Settles O40: `M` is the limit and a remainder below `N`, and `N` is at most the limit. -/
theorem moreThanHalfOfTheDrawsAreAccepted : Obligations.MoreThanHalfOfTheDrawsAreAccepted := by
  intro a ha _ hpow
  have hN : a.toNat ≤ limitFor a := le_limitFor dvd_rfl (le_Mof a ha)
  have hM : limitFor a + Mof a % a.toNat = Mof a := Nat.sub_add_cancel (Nat.mod_le _ _)
  have hrem : Mof a % a.toNat < a.toNat := Nat.mod_lt _ ha
  exact ⟨dvd_limitFor a, Mof_mod_ne_zero hpow, limitFor_lt_Mof hpow, by omega, by omega, by omega,
    ha, hN⟩

/-! Both paths, by the operand as a number (R100, R111). -/

/-- The test `N & (N - 1) = 0` on 64 bits is the test on numbers. -/
theorem isPow2_iff {a : Word} (ha : 1 ≤ a.toNat) :
    isPow2 a = true ↔ a.toNat &&& (a.toNat - 1) = 0 := by
  rw [isPow2, decide_eq_true_iff, BitVec.toNat_eq, BitVec.toNat_and, toNat_sub_one a ha]
  rfl

/-- Only the powers of two pass the test. -/
theorem toNat_eq_two_pow_of_isPow2 {a : Word} (ha : 1 ≤ a.toNat) (h : isPow2 a = true) :
    ∃ j, a.toNat = 2 ^ j :=
  (Nat.and_sub_one_eq_zero_iff_isPowerOfTwo (by omega)).mp ((isPow2_iff ha).mp h)

/-- On the power-of-two path `N - 1` is a mask. -/
theorem and_sub_one_eq_mod {a : Word} (ha : 1 ≤ a.toNat) (h : isPow2 a = true) (r : Nat) :
    r &&& (a.toNat - 1) = r % a.toNat := by
  obtain ⟨j, hj⟩ := toNat_eq_two_pow_of_isPow2 ha h
  rw [hj, Nat.and_two_pow_sub_one_eq_mod]

/-- On the power-of-two path `N` divides `M`. -/
theorem dvd_Mof {a : Word} (ha : 1 ≤ a.toNat) (h : isPow2 a = true) : a.toNat ∣ Mof a := by
  have hle := le_Mof a ha
  obtain ⟨j, hj⟩ := toNat_eq_two_pow_of_isPow2 ha h
  rw [hj] at hle ⊢
  exact Nat.pow_dvd_pow 2 ((Nat.pow_le_pow_iff_right (by decide)).mp hle)

/-- Settles O41: on both paths the result is the remainder modulo `N` of a draw below a multiple of
`N`. -/
theorem everyResultHasTheSameNumberOfDraws : Obligations.EveryResultHasTheSameNumberOfDraws := by
  refine fun a ha _ => ⟨fun _ x hx => card_filter_mod_eq hx (dvd_limitFor a), fun hpow x hx => ?_⟩
  simp only [and_sub_one_eq_mod ha hpow]
  exact card_filter_mod_eq hx (dvd_Mof ha hpow)

end Sys2Proof.Machine
end

section
/-! PROOFS. The single steps of UNIFORM (42_range_reducer.md R102, R105 to R107, R111, R112). -/

namespace Sys2Proof.Machine

/-! The operand of a valid bound (R102, R113). -/

/-- `arg` of a positive bound is the bound. -/
theorem toNat_uniformArg {N : Int} (h1 : 1 ≤ N) (hN : N < 2 ^ 63) :
    (uniformArg N).toNat = N.toNat := by
  rw [uniformArg, BitVec.toNat_ofInt]
  omega

/-- `N - 1` on 64 bits is `N - 1` on numbers. -/
theorem uniformArg_sub_one {N : Int} (h1 : 1 ≤ N) (hN : N < 2 ^ 63) :
    uniformArg N - 1#64 = BitVec.ofNat 64 (N.toNat - 1) := by
  have harg := toNat_uniformArg h1 hN
  apply BitVec.eq_of_toNat_eq
  rw [toNat_sub_one _ (by omega), harg, toNat_ofNat_of_lt (by omega)]

/-- Which bounds are accepted. -/
theorem uniformValid_uniformArg {N : Int} (hlo : -(2 ^ 63) ≤ N) (hhi : N < 2 ^ 63) :
    uniformValid (uniformArg N) = decide (0 < N) := by
  rw [uniformValid, toInt_uniformArg hlo hhi]

/-! ACCEPT (R102). -/

/-- The registers at the start of a draw: ACCEPT leaves them whatever the registers were. -/
def uniformFill (a : Word) : Urr :=
  (Urr.zero.latch .uniform a).startFill (bitsFor a) (if isPow2 a then 0 else limitFor a)

/-- ACCEPT of a positive bound. -/
theorem acceptUniform_of_pos {N : Int} (h1 : 1 ≤ N) (hN : N < 2 ^ 63) (u : Urr) :
    acceptUniform (uniformArg N) u = uniformFill (uniformArg N) := by
  have hvalid := uniformValid_uniformArg (by omega : -(2 ^ 63) ≤ N) hN
  rw [acceptUniform_of_valid (hvalid.trans (decide_eq_true h1)), uniformFill]
  rfl

/-- ACCEPT of any other bound. -/
theorem acceptUniform_of_nonpos {N : Int} (hlo : -(2 ^ 63) ≤ N) (h0 : N ≤ 0) (u : Urr) :
    acceptUniform (uniformArg N) u = (u.latch .uniform (uniformArg N)).raise .invalidArgument := by
  have hvalid := uniformValid_uniformArg hlo (by omega : N < 2 ^ 63)
  exact acceptUniform_of_invalid (by simpa [hvalid] using h0) u

/-- An idle block accepts UNIFORM (10_state.md R20). -/
theorem exec_uniform_idle {s : State} (hp : s.urr.phase = .idle) (N : Int) :
    exec (.uniform N) s = .next { s with urr := acceptUniform (uniformArg N) s.urr } := by
  rw [exec_uniform, commandStep_idle _ _ _ _ _ hp]

/-- LIMIT at the start of a draw, with the path chosen by the bound as a number. -/
theorem uniformFill_limit {N : Int} (h1 : 1 ≤ N) (hN : N < 2 ^ 63) :
    (uniformFill (uniformArg N)).limit =
      if N.toNat &&& (N.toNat - 1) = 0 then 0#64
      else BitVec.ofNat 64 (limitFor (uniformArg N)) := by
  have harg := toNat_uniformArg h1 hN
  have hpow := isPow2_iff (a := uniformArg N) (by omega)
  rw [harg] at hpow
  simp only [uniformFill, Urr.startFill_limit, hpow]
  split <;> rfl

/-- Settles O11: the two outcomes of ACCEPT, register by register. -/
theorem uniformIsAccepted : Obligations.UniformIsAccepted := by
  intro s N hp
  rw [exec_uniform_idle hp]
  refine ⟨fun h1 hN => ?_, fun hlo h0 => ?_⟩
  · rw [acceptUniform_of_pos h1 hN, ← uniformArg_sub_one h1 hN]
    exact congrArg (fun l => Host.Outcome.next { s with
      urr := { uniformFill (uniformArg N) with limit := l } }) (uniformFill_limit h1 hN)
  · rw [acceptUniform_of_nonpos hlo h0]; rfl

/-! FINISH, one equation per rule (R105 to R107). -/

/-- The power-of-two path completes with `r & (ARG - 1)`. -/
theorem finishUniform_of_isPow2 {u : Urr} (h : isPow2 u.arg = true) :
    finishUniform u = u.complete (u.r &&& (u.arg - 1#64)) := if_pos h

/-- The general path completes with `r mod ARG` for `r` below LIMIT. -/
theorem finishUniform_of_lt {u : Urr} (h : isPow2 u.arg = false) (hr : u.r.toNat < u.limit.toNat) :
    finishUniform u = u.complete (u.r % u.arg) := by
  simp [finishUniform, h, hr]

/-- The general path discards any other `r`. -/
theorem finishUniform_of_ge {u : Urr} (h : isPow2 u.arg = false) (hr : u.limit.toNat ≤ u.r.toNat) :
    finishUniform u = u.redraw := by
  simp [finishUniform, h, hr.not_gt]

/-- A complete UNIFORM fill is finished. -/
theorem exec_uniform_finish {s : State} {N : Int} (hp : s.urr.phase = .fill)
    (hs : s.urr.Serves (.uniform N)) (hc : s.urr.cnt.toNat = s.urr.need) :
    exec (.uniform N) s = .next { s with urr := finishUniform s.urr } := by
  obtain ⟨ho, -⟩ := id hs
  rw [exec_of_serves hs, exec_inFlight_finish hp hc, ho, finishOf]

/-- Settles O19: `complete`, register by register. -/
theorem uniformFinishesOnThePowerOfTwoPath : Obligations.UniformFinishesOnThePowerOfTwoPath := by
  intro s N hp ho ha hc hpow
  rw [exec_uniform_finish hp ⟨ho, ha⟩ hc, finishUniform_of_isPow2 (decide_eq_true hpow)]
  rfl

/-- Settles O20: `complete`, register by register. -/
theorem uniformAcceptsADrawBelowTheLimit : Obligations.UniformAcceptsADrawBelowTheLimit := by
  intro s N hp ho ha hc hpow hr
  rw [exec_uniform_finish hp ⟨ho, ha⟩ hc, finishUniform_of_lt (decide_eq_false hpow) hr,
    BitVec.umod_def]
  rfl

/-- R26 and R108: on the general path a fill takes at least one byte. -/
theorem Urr.OperandInv.need_pos {u : Urr} (h : u.OperandInv) (hp : u.phase = .fill)
    (ho : u.op = .uniform) (hpow : isPow2 u.arg = false) : 0 < u.need := by
  obtain ⟨hpos, -, hbits, -⟩ := (h hp).2 ho
  have h8 : 8 ≤ 8 * minBytes (u.arg - 1#64) := eight_le_bitsFor hpos hpow
  rw [Urr.need, hbits]
  omega

/-- Settles O21: `redraw`, register by register, and the next draw asks for its first byte. -/
theorem uniformDiscardsADrawAtOrAboveTheLimit :
    Obligations.UniformDiscardsADrawAtOrAboveTheLimit := by
  intro s N hp ho ha hc hpow hr
  have hgeneral : isPow2 s.urr.arg = false := decide_eq_false hpow
  refine ⟨?_, fun hop => (Urr.srcRequest_iff _).mpr ⟨hp, hop.need_pos hp ho hgeneral⟩⟩
  rw [exec_uniform_finish hp ⟨ho, ha⟩ hc, finishUniform_of_ge hgeneral hr]
  rfl

/-! FINISH, both paths together: which draws complete the command, and with what (R111, R112). -/

/-- How many values of a draw complete the command: all of them for a power of two, those below the
limit otherwise. -/
def acceptedDraws (a : Word) : Nat := if isPow2 a then Mof a else limitFor a

theorem acceptedDraws_of_isPow2 {a : Word} (h : isPow2 a = true) : acceptedDraws a = Mof a :=
  if_pos h

theorem acceptedDraws_of_not_isPow2 {a : Word} (h : isPow2 a = false) :
    acceptedDraws a = limitFor a := by
  simp [acceptedDraws, h]

theorem acceptedDraws_le_Mof (a : Word) : acceptedDraws a ≤ Mof a := by
  cases h : isPow2 a with
  | true => exact (acceptedDraws_of_isPow2 h).le
  | false => exact (acceptedDraws_of_not_isPow2 h).trans_le (Nat.sub_le _ _)

theorem dvd_acceptedDraws {a : Word} (ha : 1 ≤ a.toNat) : a.toNat ∣ acceptedDraws a := by
  cases h : isPow2 a with
  | true => exact acceptedDraws_of_isPow2 h ▸ dvd_Mof ha h
  | false => exact acceptedDraws_of_not_isPow2 h ▸ dvd_limitFor a

/-- A draw that completes the command gives its remainder modulo ARG. -/
theorem finishUniform_of_done {u : Urr} (hp : u.phase = .fill) (ha : 1 ≤ u.arg.toNat)
    (hd : (finishUniform u).phase = .done) :
    (finishUniform u).status = .ok ∧ (finishUniform u).result.toNat = u.r.toNat % u.arg.toNat := by
  rcases finishUniform_cases u with ⟨hpow, e⟩ | ⟨-, -, e⟩ | ⟨-, -, e⟩
  · rw [e, Urr.complete_result, BitVec.toNat_and, toNat_sub_one _ ha, and_sub_one_eq_mod ha hpow]
    exact ⟨rfl, rfl⟩
  · rw [e, Urr.complete_result, BitVec.toNat_umod]
    exact ⟨rfl, rfl⟩
  · simp [e, hp] at hd

/-- Under R26 the draws that complete the command are those below `acceptedDraws`. -/
theorem finishUniform_done_iff {u : Urr} (hop : u.OperandInv) (hp : u.phase = .fill)
    (ho : u.op = .uniform) :
    (finishUniform u).phase = .done ↔ u.r.toNat < acceptedDraws u.arg := by
  obtain ⟨-, -, hbits, hlimit⟩ := (hop hp).2 ho
  have hM : 2 ^ u.bits.toNat = Mof u.arg := by rw [hbits, Mof, bitsFor]
  cases hpow : isPow2 u.arg with
  | true =>
    have hr := Urr.r_toNat_lt (u := u) (hbits.trans_le (bitsFor_le u.arg))
    simpa [finishUniform_of_isPow2 hpow, acceptedDraws_of_isPow2 hpow, ← hM] using hr
  | false =>
    have hl : u.limit.toNat = limitFor u.arg := by
      simp only [Urr.pow2, hpow, Bool.and_false, Bool.false_eq_true, if_false] at hlimit
      rw [hlimit.1, hM, limitFor]
    rw [acceptedDraws_of_not_isPow2 hpow, ← hl]
    by_cases hr : u.r.toNat < u.limit.toNat
    · simp [finishUniform_of_lt hpow hr, hr]
    · simp [finishUniform_of_ge hpow (Nat.le_of_not_lt hr), hp, hr]

/-- A draw of at most BITS bits is not changed by its mask. -/
theorem r_toNat_of_draw {u : Urr} (hbits : u.bits.toNat ≤ 64) {v : Nat} (hv : v < 2 ^ u.bits.toNat) :
    ({ u with buf := BitVec.ofNat 64 v } : Urr).r.toNat = v := by
  have hv64 : v < 2 ^ 64 := hv.trans_le (Nat.pow_le_pow_right (by decide) hbits)
  rw [Urr.r, and_mask_toNat _ _ hbits, toNat_ofNat_of_lt hv64, Nat.mod_eq_of_lt hv]

/-- The draws that complete the command with result `x` are as many for every `x`. -/
theorem card_draws_with_result {u : Urr} (hop : u.OperandInv) (hp : u.phase = .fill)
    (ho : u.op = .uniform) {x : Nat} (hx : x < u.arg.toNat) :
    ((Finset.range (2 ^ u.bits.toNat)).filter fun v =>
      (finishUniform { u with buf := BitVec.ofNat 64 v }).phase = .done ∧
        (finishUniform { u with buf := BitVec.ofNat 64 v }).result.toNat = x).card =
      acceptedDraws u.arg / u.arg.toNat := by
  obtain ⟨hpos, -, hbits, -⟩ := (hop hp).2 ho
  have h64 : u.bits.toNat ≤ 64 := hbits.trans_le (bitsFor_le u.arg)
  have hM : acceptedDraws u.arg ≤ 2 ^ u.bits.toNat := by
    rw [hbits]
    exact acceptedDraws_le_Mof u.arg
  rw [← card_filter_mod_eq hx (dvd_acceptedDraws hpos)]
  congr 1
  ext v
  simp only [Finset.mem_filter, Finset.mem_range]
  by_cases hv : v < 2 ^ u.bits.toNat
  · have hr := r_toNat_of_draw h64 hv
    have hdone := finishUniform_done_iff (u := { u with buf := BitVec.ofNat 64 v }) hop hp ho
    have hres := finishUniform_of_done (u := { u with buf := BitVec.ofNat 64 v }) hp hpos
    rw [hr] at hdone hres
    constructor
    · rintro ⟨-, hd, rfl⟩
      exact ⟨hdone.mp hd, (hres hd).2.symm⟩
    · rintro ⟨hlt, rfl⟩
      exact ⟨hv, hdone.mpr hlt, (hres (hdone.mpr hlt)).2⟩
  · simp [hv, show ¬ v < acceptedDraws u.arg by omega]

/-- Settles O42: the count of `card_draws_with_result` does not depend on the result. -/
theorem uniformFinishIsUnbiased : Obligations.UniformFinishIsUnbiased := by
  intro u hop hp ho x y hx hy
  rw [card_draws_with_result hop hp ho hx, card_draws_with_result hop hp ho hy]

/-- Settles O45: the result is a remainder modulo `N`, and `N` is below `2^63`. -/
theorem uniformResultIsBelowTheBound : Obligations.UniformResultIsBelowTheBound := by
  intro s t N h1 hN hp ho ha hc h hd
  obtain rfl := Host.Outcome.next.inj (h.symm.trans (exec_uniform_finish hp ⟨ho, ha⟩ hc))
  have harg : s.urr.arg.toNat = N.toNat := ha ▸ toNat_uniformArg h1 hN
  have hpos : 1 ≤ s.urr.arg.toNat := by omega
  obtain ⟨hstatus, hresult⟩ := finishUniform_of_done hp hpos hd
  have hlt : (finishUniform s.urr).result.toNat < s.urr.arg.toNat := hresult ▸ Nat.mod_lt _ hpos
  exact ⟨hstatus, by dsimp only; omega, Nat.testBit_lt_two_pow (by dsimp only; omega)⟩

end Sys2Proof.Machine
end

section
/-! PROOFS. One draw of UNIFORM in steps (42_range_reducer.md R104 to R107): the bytes that come, and
what ends it. The schedule is empty, so every enabled step happens (notes/assumptions/1.md). -/

namespace Sys2Proof.Machine

/-! The registers of a draw. -/

theorem uniformFill_bits_toNat (a : Word) : (uniformFill a).bits.toNat = bitsFor a :=
  toNat_ofNat_of_lt ((bitsFor_le a).trans_lt (by decide))

/-- A draw takes the bytes that `N - 1` needs (R102). -/
theorem uniformFill_need (a : Word) : (uniformFill a).need = minBytes (a - 1#64) := by
  rw [Urr.need, uniformFill_bits_toNat, bitsFor]
  omega

theorem uniformFill_limit_toNat {a : Word} (hpow : isPow2 a = false) :
    (uniformFill a).limit.toNat = limitFor a := by
  rw [uniformFill, hpow]
  exact toNat_ofNat_of_lt ((limitFor_lt_Mof hpow).trans_le (Mof_le a))

/-- `r` of a draw (10_state.md R13). -/
theorem uniformFill_withBytes_r (a : Word) (bs : List Byte) :
    ((uniformFill a).withBytes bs).r = assemble bs &&& mask (bitsFor a) := by
  rw [Urr.r, show ((uniformFill a).withBytes bs).bits.toNat = bitsFor a from uniformFill_bits_toNat a]
  rfl

/-- While bytes are missing a request is outstanding (20_memory.md R31). -/
theorem uniformFill_srcRequest {a : Word} {bs : List Byte} (hlen : bs.length < minBytes (a - 1#64)) :
    ((uniformFill a).withBytes bs).srcRequest = true := by
  have h8 : bs.length ≤ 8 := hlen.le.trans (minBytes_le_eight _)
  rw [Urr.srcRequest_iff, Urr.withBytes_cnt_toNat h8, Urr.withBytes_need, uniformFill_need]
  exact ⟨rfl, hlen⟩

/-- On the general path a draw takes at least one byte (R108). -/
theorem minBytes_sub_one_pos {a : Word} (ha : 1 ≤ a.toNat) (hpow : isPow2 a = false) :
    1 ≤ minBytes (a - 1#64) := by
  have h : 8 ≤ 8 * minBytes (a - 1#64) := eight_le_bitsFor ha hpow
  omega

/-! The run of one draw, after `used` replies of the command. -/

section
variable {s : State} {i : Instr} {later : List CmdWord} {a : Word} {used : Nat} {bs : List Byte}
  {ρ : List Reply}

/-- One BYTE step for each byte that comes. -/
theorem run_draw_bytes (h : s.Presents i later) (hlen : bs.length ≤ minBytes (a - 1#64))
    (hscript : (s.src.consumeN used).script.map replyOf = bs.map .byte ++ ρ) :
    core.run bs.length (s.serving later (uniformFill a) used) =
      .next (s.serving later ((uniformFill a).withBytes bs) (used + bs.length)) := by
  have hstart : (s.serving later (uniformFill a) used).AtFillStart := ⟨h.schedule, rfl, rfl, rfl⟩
  rw [run_bytes hstart (hlen.trans_eq (uniformFill_need a).symm)
    (hlen.trans (minBytes_le_eight _)) hscript]
  simp only [State.serving, Source.consumeN_consumeN]

/-- All bytes of the draw come: FINISH. -/
theorem run_draw_finish (h : s.Presents i later) (hlen : bs.length = minBytes (a - 1#64))
    (hscript : (s.src.consumeN used).script.map replyOf = bs.map .byte ++ ρ) :
    core.run (bs.length + 1) (s.serving later (uniformFill a) used) =
      .next (s.serving later (finishUniform ((uniformFill a).withBytes bs)) (used + bs.length)) := by
  have h8 : bs.length ≤ 8 := hlen.trans_le (minBytes_le_eight _)
  have hcnt : ((uniformFill a).withBytes bs).cnt.toNat = ((uniformFill a).withBytes bs).need := by
    rw [Urr.withBytes_cnt_toNat h8, Urr.withBytes_need, uniformFill_need, hlen]
  exact run_then_step (run_draw_bytes h hlen.le hscript) (step_finish
    (s := s.serving later ((uniformFill a).withBytes bs) (used + bs.length)) h.schedule rfl hcnt)

/-- A draw that FINISH completes with `v` is answered with it. -/
theorem run_draw_completed {v : Word} (h : s.Presents i later)
    (hlen : bs.length = minBytes (a - 1#64))
    (hscript : (s.src.consumeN used).script.map replyOf = bs.map .byte ++ ρ)
    (hv : finishUniform ((uniformFill a).withBytes bs) = ((uniformFill a).withBytes bs).complete v) :
    core.run (bs.length + 1 + 1) (s.serving later (uniformFill a) used) =
      .next (s.answered later { status := .ok, result := v } (used + bs.length)) := by
  have hfinish := run_draw_finish h hlen hscript
  rw [hv] at hfinish
  exact run_then_step hfinish (step_serving_done h rfl rfl)

/-- The power-of-two path: any draw is the result, modulo `N` (R105). -/
theorem run_draw_isPow2 (h : s.Presents i later) (hlen : bs.length = minBytes (a - 1#64))
    (hscript : (s.src.consumeN used).script.map replyOf = bs.map .byte ++ ρ)
    (hpow : isPow2 a = true) :
    core.run (bs.length + 1 + 1) (s.serving later (uniformFill a) used) =
      .next (s.answered later
        { status := .ok, result := (assemble bs &&& mask (bitsFor a)) &&& (a - 1#64) }
        (used + bs.length)) := by
  refine run_draw_completed h hlen hscript ?_
  rw [← uniformFill_withBytes_r]
  exact finishUniform_of_isPow2 hpow

/-- The general path: a draw below the limit is the result, modulo `N` (R106). -/
theorem run_draw_accepted (h : s.Presents i later) (hlen : bs.length = minBytes (a - 1#64))
    (hscript : (s.src.consumeN used).script.map replyOf = bs.map .byte ++ ρ)
    (hpow : isPow2 a = false) (hr : (assemble bs &&& mask (bitsFor a)).toNat < limitFor a) :
    core.run (bs.length + 1 + 1) (s.serving later (uniformFill a) used) =
      .next (s.answered later
        { status := .ok, result := (assemble bs &&& mask (bitsFor a)) % a }
        (used + bs.length)) := by
  refine run_draw_completed h hlen hscript ?_
  rw [← uniformFill_withBytes_r] at hr ⊢
  exact finishUniform_of_lt hpow (hr.trans_eq (uniformFill_limit_toNat hpow).symm)

/-- The general path: after any other draw the block is at the start of the next (R107). -/
theorem run_draw_rejected (h : s.Presents i later) (hlen : bs.length = minBytes (a - 1#64))
    (hscript : (s.src.consumeN used).script.map replyOf = bs.map .byte ++ ρ)
    (hpow : isPow2 a = false) (hr : limitFor a ≤ (assemble bs &&& mask (bitsFor a)).toNat) :
    core.run (bs.length + 1) (s.serving later (uniformFill a) used) =
      .next (s.serving later (uniformFill a) (used + bs.length)) := by
  rw [← uniformFill_withBytes_r] at hr
  have hredraw : finishUniform ((uniformFill a).withBytes bs) = uniformFill a :=
    finishUniform_of_ge hpow ((uniformFill_limit_toNat hpow).trans_le hr)
  rw [run_draw_finish h hlen hscript, hredraw]

/-- A `Fail` ends the command; the bytes before it are lost (60_exceptions.md R142). -/
theorem run_draw_failed (h : s.Presents i later) (hlen : bs.length < minBytes (a - 1#64))
    (hscript : (s.src.consumeN used).script.map replyOf = bs.map .byte ++ .fail :: ρ) :
    core.run (bs.length + 1 + 1) (s.serving later (uniformFill a) used) =
      .next (s.answered later (.error .sourceError) (used + (bs.length + 1))) := by
  obtain ⟨w, ha, hr⟩ := Source.answer_consumeN_of_replies hscript
  rw [List.length_map, Source.consumeN_consumeN] at ha
  obtain ⟨hp, hcnt⟩ := (Urr.srcRequest_iff _).mp (uniformFill_srcRequest hlen)
  have hfail := step_fail
    (s := s.serving later ((uniformFill a).withBytes bs) (used + bs.length)) h.schedule hp hcnt ha hr
  have hserving : step (s.serving later ((uniformFill a).withBytes bs) (used + bs.length)) =
      .next (s.serving later (((uniformFill a).withBytes bs).raise .sourceError)
        (used + (bs.length + 1))) := by
    rw [hfail, State.serving, State.serving, Source.consume_consumeN, Nat.add_assoc]
  exact run_then_step (run_then_step (run_draw_bytes h hlen.le hscript) hserving)
    (step_serving_done h rfl rfl)

end

end Sys2Proof.Machine
end

section
/-! PROOFS. UNIFORM from ACCEPT to RESPOND (42_range_reducer.md R101, R105, R110). The schedule is empty,
so every enabled step happens (notes/assumptions/1.md). -/

namespace Sys2Proof.Machine

/-! ACCEPT of a presented UNIFORM (R102). -/

section
variable {s : State} {N : Int} {later : List CmdWord}

theorem step_presented_uniform (h : s.Presents (.uniform N) later) (hlo : -(2 ^ 63) ≤ N)
    (hhi : N < 2 ^ 63) :
    step s = .next (s.serving later (acceptUniform (uniformArg N) Urr.zero) 0) := by
  rw [step_presented h ((Instr.wellFormed_uniform_iff N).mpr ⟨hlo, hhi⟩),
    exec_uniform_idle (by simp [h.urr])]
  simp [State.serving, h.urr]

/-- A positive bound starts the first draw. -/
theorem step_presented_uniform_of_pos (h : s.Presents (.uniform N) later) (h1 : 1 ≤ N)
    (hN : N < 2 ^ 63) : step s = .next (s.serving later (uniformFill (uniformArg N)) 0) := by
  rw [step_presented_uniform h (by omega) hN, acceptUniform_of_pos h1 hN]

/-- Any other bound is answered at once. -/
theorem run_uniform_invalid (h : s.Presents (.uniform N) later) (hlo : -(2 ^ 63) ≤ N) (h0 : N ≤ 0) :
    core.run 2 s = .next (s.answered later (.error .invalidArgument) 0) := by
  have haccept := step_presented_uniform h hlo (by omega)
  rw [acceptUniform_of_nonpos hlo h0] at haccept
  exact run_then_step (run_one haccept) (step_serving_done h rfl rfl)

end

/-! The reply function of the draws, one equation per way a draw can end (R101). -/

section
variable {a : Word} {ρ : List Reply} {bs : List Byte} (fuel used : Nat)

theorem drawsOf_of_pending (h : fillOf (minBytes (a - 1#64)) ρ = .pending) :
    drawsOf a (fuel + 1) ρ used = none := by
  simp [drawsOf, h]

theorem drawsOf_of_failed {j : Nat} (h : fillOf (minBytes (a - 1#64)) ρ = .failed j) :
    drawsOf a (fuel + 1) ρ used = some (.error .sourceError, used + (j + 1)) := by
  simp [drawsOf, h]

theorem drawsOf_of_isPow2 (h : fillOf (minBytes (a - 1#64)) ρ = .full bs) (hpow : isPow2 a = true) :
    drawsOf a (fuel + 1) ρ used =
      some ({ status := .ok, result := (assemble bs &&& mask (bitsFor a)) &&& (a - 1#64) },
        used + minBytes (a - 1#64)) := by
  simp [drawsOf, h, hpow]

theorem drawsOf_of_accepted (h : fillOf (minBytes (a - 1#64)) ρ = .full bs)
    (hpow : isPow2 a = false) (hr : (assemble bs &&& mask (bitsFor a)).toNat < limitFor a) :
    drawsOf a (fuel + 1) ρ used =
      some ({ status := .ok, result := (assemble bs &&& mask (bitsFor a)) % a },
        used + minBytes (a - 1#64)) := by
  simp only [drawsOf, h, hpow, Bool.false_eq_true, if_false, if_pos hr]

theorem drawsOf_of_rejected (h : fillOf (minBytes (a - 1#64)) ρ = .full bs)
    (hpow : isPow2 a = false) (hr : limitFor a ≤ (assemble bs &&& mask (bitsFor a)).toNat) :
    drawsOf a (fuel + 1) ρ used =
      drawsOf a fuel (ρ.drop (minBytes (a - 1#64))) (used + minBytes (a - 1#64)) := by
  simp only [drawsOf, h, hpow, Bool.false_eq_true, if_false, if_neg hr.not_gt]

end

/-! The steps do what the reply function says. -/

/-- From `t`, a state in the service of the command that `s` presents, the block runs to the outcome: it
answers as the function says, or has consumed every reply of the script and waits for the next. -/
def State.RunsTo (s : State) (later : List CmdWord) (t : State) : Option (Response × Nat) → Prop
  | some (p, used) => ∃ k, core.run k t = .next (s.answered later p used)
  | none => ∃ k u, core.run k t = .next (s.serving later u s.src.script.length) ∧ u.srcRequest = true

/-- An outcome reached after a run is reached from its start. -/
theorem State.RunsTo.of_run {s t t' : State} {later : List CmdWord} {j : Nat}
    {o : Option (Response × Nat)} (hrun : core.run j t = .next t') (h : s.RunsTo later t' o) :
    s.RunsTo later t o := by
  cases o with
  | some r =>
    obtain ⟨k, hk⟩ := h
    exact ⟨j + k, (run_add t t' j k hrun).trans hk⟩
  | none =>
    obtain ⟨k, u, hk, hu⟩ := h
    exact ⟨j + k, u, (run_add t t' j k hrun).trans hk, hu⟩

/-- The draws after `used` replies, with fuel for the replies left: each rejected draw takes at least one
of them. -/
theorem runsTo_drawsOf {s : State} {i : Instr} {later : List CmdWord} {a : Word}
    (h : s.Presents i later) (ha : 1 ≤ a.toNat) (fuel used : Nat)
    (hused : used ≤ s.src.script.length) (hfuel : s.src.script.length < used + fuel) :
    s.RunsTo later (s.serving later (uniformFill a) used)
      (drawsOf a fuel ((s.src.consumeN used).script.map replyOf) used) := by
  induction fuel generalizing used with
  | zero => omega
  | succ fuel ih =>
    have hleft : ((s.src.consumeN used).script.map replyOf).length = s.src.script.length - used := by
      simp
    rcases fillOf_cases (minBytes (a - 1#64)) ((s.src.consumeN used).script.map replyOf) with
      ⟨bs, ρ, hρ, hlen, e⟩ | ⟨bs, ρ, hρ, hlen, e⟩ | ⟨bs, hρ, hlen, e⟩
    · cases hpow : isPow2 a with
      | true =>
        rw [drawsOf_of_isPow2 _ _ e hpow]
        exact ⟨_, hlen ▸ run_draw_isPow2 h hlen hρ hpow⟩
      | false =>
        by_cases hr : (assemble bs &&& mask (bitsFor a)).toNat < limitFor a
        · rw [drawsOf_of_accepted _ _ e hpow hr]
          exact ⟨_, hlen ▸ run_draw_accepted h hlen hρ hpow hr⟩
        · have hreject := run_draw_rejected h hlen hρ hpow (Nat.le_of_not_lt hr)
          have hpos := minBytes_sub_one_pos ha hpow
          have hbs : bs.length ≤ s.src.script.length - used := by
            rw [← hleft, hρ]
            simp
          have hnext := ih (used + bs.length) (by omega) (by omega)
          rw [← Source.consumeN_consumeN, Source.consumeN_script, List.map_drop, hlen] at hnext
          rw [drawsOf_of_rejected _ _ e hpow (Nat.le_of_not_lt hr)]
          exact State.RunsTo.of_run (hlen ▸ hreject) hnext
    · rw [drawsOf_of_failed _ _ e]
      exact ⟨_, run_draw_failed h hlen hρ⟩
    · rw [drawsOf_of_pending _ _ e]
      have hall : used + bs.length = s.src.script.length := by
        have : bs.length = s.src.script.length - used := by rw [← hleft, hρ, List.length_map]
        omega
      have hbytes := run_draw_bytes h hlen.le (ρ := []) (by simpa using hρ)
      exact ⟨_, _, hall ▸ hbytes, uniformFill_srcRequest hlen⟩

/-- From ACCEPT the block runs to what the reply function of UNIFORM says (R101). -/
theorem runsTo_uniformReplies {s : State} {N : Int} {later : List CmdWord}
    (h : s.Presents (.uniform N) later) (hlo : -(2 ^ 63) ≤ N) (hhi : N < 2 ^ 63) :
    s.RunsTo later s (uniformReplies N (s.src.script.map replyOf)) := by
  by_cases h0 : N ≤ 0
  · rw [uniformReplies, if_pos h0]
    exact ⟨_, run_uniform_invalid h hlo h0⟩
  · have hpos : 1 ≤ (uniformArg N).toNat := by
      rw [toNat_uniformArg (by omega) hhi]
      omega
    have hdraws := runsTo_drawsOf h hpos (s.src.script.length + 1) 0 (by omega) (by omega)
    rw [Source.consumeN_zero] at hdraws
    rw [uniformReplies, if_neg h0, List.length_map]
    exact hdraws.of_run (run_one (step_presented_uniform_of_pos h (by omega) hhi))

/-- Settles O47: the two outcomes of `RunsTo`. -/
theorem uniformMatchesItsReplyFunction : Obligations.UniformMatchesItsReplyFunction := by
  intro s N later hlo hhi hurr hcommands hschedule
  have hruns := runsTo_uniformReplies ⟨hurr, hcommands, hschedule⟩ hlo hhi
  cases e : uniformReplies N (s.src.script.map replyOf) with
  | some r =>
    rw [e] at hruns
    exact hruns
  | none =>
    rw [e] at hruns
    obtain ⟨k, u, hrun, hreq⟩ := hruns
    exact ⟨k, _, hrun, hreq, rfl, rfl⟩

/-! A power of two (R105). -/

/-- The result of the power-of-two path is the draw modulo `N`: masking it first changes nothing. -/
theorem and_mask_and_sub_one {a : Word} (ha : 1 ≤ a.toNat) (hpow : isPow2 a = true) (v : Word) :
    (v &&& mask (bitsFor a)) &&& (a - 1#64) = BitVec.ofNat 64 (v.toNat % a.toNat) := by
  apply BitVec.eq_of_toNat_eq
  have hlt : v.toNat % a.toNat < 2 ^ 64 := (Nat.mod_le _ _).trans_lt v.isLt
  rw [BitVec.toNat_and, toNat_sub_one a ha, and_sub_one_eq_mod ha hpow,
    and_mask_toNat _ _ (bitsFor_le a), toNat_ofNat_of_lt hlt]
  exact Nat.mod_mod_of_dvd _ (dvd_Mof ha hpow)

/-- Settles O49: the run of the one draw, whose bytes all come. -/
theorem uniformOfAPowerOfTwoDrawsOnce : Obligations.UniformOfAPowerOfTwoDrawsOnce := by
  intro s e later bs rest he hlen hurr hcommands hschedule hscript
  have h : s.Presents (.uniform (2 ^ e)) later := ⟨hurr, hcommands, hschedule⟩
  have hN : ((2 ^ e : Int)).toNat = 2 ^ e := by norm_cast
  have h1 : (1 : Int) ≤ 2 ^ e := one_le_pow₀ (by decide)
  have hlt : (2 ^ e : Int) < 2 ^ 63 := pow_lt_pow_right₀ (by decide) (by omega)
  have harg : (uniformArg (2 ^ e)).toNat = 2 ^ e := (toNat_uniformArg h1 hlt).trans hN
  have hpos : 1 ≤ (uniformArg (2 ^ e)).toNat := harg ▸ Nat.two_pow_pos e
  have hpow := isPow2_of_toNat_eq_two_pow harg
  have hlen' : bs.length = minBytes (uniformArg (2 ^ e) - 1#64) := by
    rw [uniformArg_sub_one h1 hlt, hN, hlen]
  have hreplies : (s.src.consumeN 0).script.map replyOf = bs.map .byte ++ rest.map replyOf := by
    rw [Source.consumeN_zero, hscript, map_replyOf_bytes]
  have hdraw := run_draw_isPow2 h hlen' hreplies hpow
  rw [and_mask_and_sub_one hpos hpow, harg, Nat.zero_add, State.answered,
    Source.consumeN_of_bytes hscript] at hdraw
  rw [show bs.length + 3 = 1 + (bs.length + 1 + 1) by omega,
    run_add s _ 1 _ (run_one (step_presented_uniform_of_pos h h1 hlt)), hdraw]
  rfl

/-! The rejection loop (R110). -/

/-- `k` bytes 0xFF assemble to the largest number of `k` bytes. -/
theorem assembleNat_replicate_ff (k : Nat) : assembleNat (List.replicate k 0xFF#8) = 2 ^ (8 * k) - 1 := by
  induction k with
  | zero => rfl
  | succ k ih =>
    have hff : (0xFF#8).toNat = 255 := rfl
    have hpos : 0 < 2 ^ (8 * k) := Nat.two_pow_pos _
    rw [List.replicate_succ, assembleNat, ih, hff, Nat.mul_succ, Nat.pow_add]
    omega

/-- On the general path a draw of bytes 0xFF is not below the limit. -/
theorem limitFor_le_draw_ff {a : Word} (hpow : isPow2 a = false) :
    limitFor a ≤
      (assemble (List.replicate (minBytes (a - 1#64)) 0xFF#8) &&& mask (bitsFor a)).toNat := by
  have h8 : (List.replicate (minBytes (a - 1#64)) 0xFF#8).length ≤ 8 := by
    simpa using minBytes_le_eight (a - 1#64)
  have hlt : limitFor a < 2 ^ bitsFor a := limitFor_lt_Mof hpow
  have hff : assembleNat (List.replicate (minBytes (a - 1#64)) 0xFF#8) = 2 ^ bitsFor a - 1 :=
    assembleNat_replicate_ff _
  rw [and_mask_toNat _ _ (bitsFor_le a), assemble_toNat h8, hff, Nat.mod_eq_of_lt (by omega)]
  omega

/-- Any number of such draws leaves the block at the start of the next. -/
theorem run_draws_ff {s : State} {i : Instr} {later : List CmdWord} {a : Word} {rest : List SrcrWord}
    (h : s.Presents i later) (hpow : isPow2 a = false) (m used : Nat)
    (hscript : (s.src.consumeN used).script =
      List.replicate (m * minBytes (a - 1#64)) (byteWord 0xFF#8) ++ rest) :
    core.run (m * (minBytes (a - 1#64) + 1)) (s.serving later (uniformFill a) used) =
      .next (s.serving later (uniformFill a) (used + m * minBytes (a - 1#64))) := by
  induction m generalizing used with
  | zero => simp
  | succ m ih =>
    have hlen : (List.replicate (minBytes (a - 1#64)) 0xFF#8).length = minBytes (a - 1#64) := by simp
    have hscript' : (s.src.consumeN used).script =
        (List.replicate (minBytes (a - 1#64)) 0xFF#8).map byteWord ++
          (List.replicate (m * minBytes (a - 1#64)) (byteWord 0xFF#8) ++ rest) := by
      rw [hscript, List.map_replicate, ← List.append_assoc, List.replicate_append_replicate,
        Nat.succ_mul, Nat.add_comm]
    have hdraw := run_draw_rejected h hlen
      ((congrArg (List.map replyOf) hscript').trans (map_replyOf_bytes _ _)) hpow
      (limitFor_le_draw_ff hpow)
    have hnext := congrArg Source.script (Source.consumeN_of_bytes hscript')
    rw [hlen] at hdraw hnext
    rw [Source.consumeN_consumeN] at hnext
    rw [Nat.succ_mul, Nat.add_comm (m * _), run_add _ _ _ _ hdraw, ih _ hnext, Nat.succ_mul,
      Nat.add_comm (m * _), Nat.add_assoc]

/-- Settles O50: ACCEPT, and then any number of rejected draws. -/
theorem rejectionLoopHasNoCap : Obligations.RejectionLoopHasNoCap := by
  intro s N m later rest h1 hN hpow hurr hcommands hschedule hscript
  have h : s.Presents (.uniform N) later := ⟨hurr, hcommands, hschedule⟩
  have hdraws := run_draws_ff h hpow m 0 ((congrArg Source.script s.src.consumeN_zero).trans hscript)
  refine ⟨_, (run_add s _ 1 _ (run_one (step_presented_uniform_of_pos h h1 hN))).trans hdraws,
    (acceptUniform_of_pos h1 hN _).symm, rfl, rfl, ?_⟩
  show s.src.script.drop (0 + m * minBytes (uniformArg N - 1#64)) = rest
  rw [hscript, Nat.zero_add]
  exact List.drop_left' (List.length_replicate ..)

end Sys2Proof.Machine
end

section
/-! PROOFS. Waiting, and what raises each of the two errors (60_exceptions.md R141, R142, R160). -/

namespace Sys2Proof.Machine

/-- Settles O15: the three ways to wait are a `wait` turn, an idle block without a command, and a fill
without a reply. -/
theorem waitingKeepsEverything : Obligations.WaitingKeepsEverything := by
  rintro s (ht | ⟨ht, hp, hc⟩ | ⟨ht, hp, hcnt, ha⟩)
  · exact step_wait s ht
  · exact step_idle_none s ht hp hc
  · rw [step_fill s ht hp, fillStep_byte _ s.endTurn hcnt, byteStep_of_no_answer s.endTurn ha]
    rfl

/-! The operand of the word presented (R141). -/

/-- R141: the words that ACCEPT answers with INVALID_ARGUMENT. -/
def InvalidWord (w : CmdWord) : Prop :=
  (opField w = 0#1 ∧ 64 < (argField w).toNat) ∨ (opField w = 1#1 ∧ (argField w).toInt ≤ 0)

/-- The registers after ACCEPT of a word, whichever command it is (as in `step_accept`). -/
def acceptWord (w : CmdWord) (u : Urr) : Urr :=
  if opField w = 0#1 then acceptExtract (argField w) u else acceptUniform (argField w) u

theorem acceptWord_of_op_zero {w : CmdWord} (h : opField w = 0#1) (u : Urr) :
    acceptWord w u = acceptExtract (argField w) u := if_pos h

theorem acceptWord_of_op_one {w : CmdWord} (h : opField w = 1#1) (u : Urr) :
    acceptWord w u = acceptUniform (argField w) u := if_neg (by simp [h])

/-- R141: such a word is refused by ACCEPT itself. -/
theorem acceptWord_of_invalid {w : CmdWord} (h : InvalidWord w) (u : Urr) :
    ∃ v : Urr, acceptWord w u = v.raise .invalidArgument := by
  rcases h with ⟨hop, ha⟩ | ⟨hop, ha⟩
  · rw [acceptWord_of_op_zero hop]
    exact ⟨_, acceptExtract_of_invalid (by simpa [extractValid] using ha) u⟩
  · rw [acceptWord_of_op_one hop]
    exact ⟨_, acceptUniform_of_invalid (by simpa [uniformValid] using ha) u⟩

/-- Any other word starts its fill with STATUS = OK (R74, R102). -/
theorem acceptWord_status_of_valid {w : CmdWord} (h : ¬ InvalidWord w) (u : Urr) :
    (acceptWord w u).status = .ok := by
  rcases opField_cases w with hop | hop
  · have ha : extractValid (argField w) = true := by simpa [InvalidWord, hop, extractValid] using h
    rw [acceptWord_of_op_zero hop, acceptExtract_of_valid ha, Urr.startFill_status]
  · have ha : uniformValid (argField w) = true := by simpa [InvalidWord, hop, uniformValid] using h
    rw [acceptWord_of_op_one hop, acceptUniform_of_valid ha, Urr.startFill_status]

/-- A reply is `Fail` exactly when its bit 8 is set (30_encoding.md R58). -/
theorem replyOf_eq_fail_iff (w : SrcrWord) : replyOf w = .fail ↔ w.getLsbD 8 = true := by
  refine ⟨fun hr => ?_, replyOf_of_fail⟩
  cases hw : w.getLsbD 8 with
  | true => rfl
  | false => simp [replyOf_of_not_fail hw] at hr

/-! The two steps that raise an error, and what every other step does to STATUS. -/

/-- The step is an ACCEPT of a word refused with INVALID_ARGUMENT. -/
def State.AcceptsInvalid (s : State) : Prop :=
  s.turn = .go ∧ s.urr.phase = .idle ∧ ∃ w ws, s.host.commands = w :: ws ∧ InvalidWord w

/-- The step is a BYTE whose reply is `Fail`. -/
def State.ReceivesFail (s : State) : Prop :=
  s.turn = .go ∧ s.urr.phase = .fill ∧ s.urr.cnt.toNat < s.urr.need ∧
    ∃ w, s.src.answer = some w ∧ w.getLsbD 8 = true

/-- R141: the refusal goes straight to DONE and does not reach the source. -/
theorem step_of_acceptsInvalid {s t : State} (hs : s.AcceptsInvalid) (h : step s = .next t) :
    ∃ v : Urr, t.urr = v.raise .invalidArgument ∧ t.src = s.src := by
  obtain ⟨ht, hp, w, ws, hc, hw⟩ := hs
  obtain ⟨v, hv⟩ := acceptWord_of_invalid hw s.urr
  obtain rfl := Host.Outcome.next.inj (h.symm.trans (step_accept s ht hp hc))
  exact ⟨v, hv, rfl⟩

/-- R142: the `Fail` raises SOURCE_ERROR at once. -/
theorem step_of_receivesFail {s t : State} (hs : s.ReceivesFail) (h : step s = .next t) :
    t.urr = s.urr.raise .sourceError := by
  obtain ⟨ht, hp, hc, w, ha, hw⟩ := hs
  rw [step_fill s ht hp, fillStep_byte _ s.endTurn hc,
    byteStep_of_fail s.endTurn ha (replyOf_of_fail hw)] at h
  obtain rfl := Host.Outcome.next.inj h
  rfl

/-- FINISH sets STATUS to OK or, drawing again, keeps it. -/
theorem finishOf_status (o : Op) (u : Urr) :
    (finishOf o u).status = u.status ∨ (finishOf o u).status = .ok := by
  rcases finishOf_cases o u with ⟨v, e⟩ | e <;> simp [e]

/-- A step that is neither of the two keeps STATUS or sets it to OK. -/
theorem step_status {s t : State} (h : step s = .next t) :
    t.urr.status = s.urr.status ∨ t.urr.status = .ok ∨ s.AcceptsInvalid ∨ s.ReceivesFail := by
  rcases step_cases s t h with ⟨c, -, rfl⟩ | ⟨-, rfl⟩ | ⟨ht, hp, w, ws, hc, rfl⟩ |
    ⟨ht, hp, hc, w, ha, hr, -⟩ | ⟨-, -, -, w, b, -, -, rfl⟩ | ⟨-, -, -, rfl⟩ | ⟨-, -, rfl⟩
  · exact .inr (.inl rfl)
  · exact .inl rfl
  · by_cases hw : InvalidWord w
    · exact .inr (.inr (.inl ⟨ht, hp, w, ws, hc, hw⟩))
    · exact .inr (.inl (acceptWord_status_of_valid hw s.urr))
  · exact .inr (.inr (.inr ⟨ht, hp, hc, w, ha, (replyOf_eq_fail_iff w).mp hr⟩))
  · exact .inl rfl
  · exact (finishOf_status s.urr.op s.urr).imp id .inl
  · exact .inr (.inl rfl)

/-- R141: a STATUS newly INVALID_ARGUMENT comes from ACCEPT of an invalid word. -/
theorem acceptsInvalid_of_step {s t : State} (hs : s.urr.status ≠ .invalidArgument)
    (h : step s = .next t) (ht : t.urr.status = .invalidArgument) : s.AcceptsInvalid := by
  rcases step_status h with hkeep | hok | hinvalid | hfail
  · exact absurd (hkeep.symm.trans ht) hs
  · simp [hok] at ht
  · exact hinvalid
  · simp [step_of_receivesFail hfail h] at ht

/-- R142: a STATUS newly SOURCE_ERROR comes from BYTE with a `Fail`. -/
theorem receivesFail_of_step {s t : State} (hs : s.urr.status ≠ .sourceError)
    (h : step s = .next t) (ht : t.urr.status = .sourceError) : s.ReceivesFail := by
  rcases step_status h with hkeep | hok | hinvalid | hfail
  · exact absurd (hkeep.symm.trans ht) hs
  · simp [hok] at ht
  · obtain ⟨v, hv, -⟩ := step_of_acceptsInvalid hinvalid h
    simp [hv] at ht
  · exact hfail

/-- Settles O32: ACCEPT of an invalid word is the one step that raises INVALID_ARGUMENT. -/
theorem invalidArgumentExactly : Obligations.InvalidArgumentExactly := by
  intro s t hs h
  refine ⟨⟨acceptsInvalid_of_step hs h, fun hinvalid => ?_⟩, fun ht => ?_⟩
  · obtain ⟨v, hv, -⟩ := step_of_acceptsInvalid hinvalid h
    rw [hv, Urr.raise_status]
  · obtain ⟨v, hv, hsrc⟩ := step_of_acceptsInvalid (acceptsInvalid_of_step hs h ht) h
    exact ⟨hsrc, by rw [hv, Urr.raise_phase], by rw [hv, Urr.raise_result]⟩

/-- Settles O33: BYTE with a `Fail` is the one step that raises SOURCE_ERROR, and an empty fill has no
BYTE. -/
theorem sourceErrorExactly : Obligations.SourceErrorExactly := by
  intro s t hs h
  refine ⟨⟨receivesFail_of_step hs h, fun hfail => ?_⟩, fun hbits ht => ?_⟩
  · rw [step_of_receivesFail hfail h, Urr.raise_status]
  · obtain ⟨-, -, hcnt, -⟩ := receivesFail_of_step hs h ht
    have hneed : s.urr.need = 0 := by simp [Urr.need, hbits]
    omega

end Sys2Proof.Machine
end

section
/-! PROOFS. RESET in any state (70_reset_and_hazards.md R170, R171). -/

namespace Sys2Proof.Machine

/-- The source loses a reply to RESET only where one was asked for and the turn counts it as consumed. -/
theorem resetStep_src (c : Bool) (s : State) :
    (resetStep c s).src =
      if c = true ∧ s.urr.phase = .fill ∧ s.urr.cnt.toNat < s.urr.need then s.src.consume
      else s.src := by
  simp only [resetStep, Bool.and_eq_true, Urr.srcRequest_iff]

/-- Settles O27: `resetStep` at the end of the turn, its source by `resetStep_src`. -/
theorem resetClearsTheBlockInAnyState : Obligations.ResetClearsTheBlockInAnyState := by
  intro s c h
  rw [step_reset s c h]
  exact congrArg (fun o => Host.Outcome.next { resetStep c s.endTurn with src := o })
    (resetStep_src c s.endTurn)

end Sys2Proof.Machine
end
